-- ==== Sys2Proof/Word.lean ====
section
/-! DEFINITION. The plain data types of GF2-LTC52: lanes, packets, GF(2) vectors and matrices, syndrome-table entries.

A GF(2) vector of length `n` is a `BitVec n` with element `j` at bit `j` (R10). -/

namespace Sys2Proof

/-- One byte of a packet on a byte-wide bus (R42). -/
abbrev Byte := BitVec 8

/-- One element lane of a command: 8 bits, so that a non-binary element can be presented (R57). -/
abbrev Lane := BitVec 8

/-- A command packet, format CMD (R55, R56). -/
abbrev CmdPacket := BitVec 152

/-- A response packet, format RSP (R55, R62). -/
abbrev RspPacket := BitVec 16

/-- An `r × c` matrix over GF(2): its rows, cell `M[i][j]` at bit `j` of row `i` (R10, R11). It is never partial or ragged. -/
abbrev BitMatrix (r c : Nat) := Vector (BitVec c) r

/-- One entry `{V, E[4:0]}` of the syndrome table (R24). -/
structure SynEntry where
  /-- 1: the syndrome is mapped. 0: unmapped ("absent"). -/
  v : Bool
  /-- The error vector, element `j` at bit `j`. -/
  e : BitVec 5
  deriving DecidableEq, Repr, Inhabited

end Sys2Proof
end

