-- ==== Sys2Proof/Config.lean ====
section
/-! DEFINITION. What is fixed for this hardware (the parameters of R8, the hardwired matrices) and the values the spec
leaves unspecified (free values: constants without a body, of which nothing can be proved). -/

namespace Sys2Proof

/-- `MAX_DIM`, the largest row or column count of a matrix operand (R8). -/
abbrev Config.maxDim : Nat := 8

/-- The largest value of the 4-bit length field `ALEN` (R8, R56). -/
abbrev Config.maxLen : Nat := 15

/-- The bytes of a command packet: 152 bits (R8, R42). -/
abbrev Config.cmdBytes : Nat := 19

/-- The generator matrix G, rows [1,0,1,1,1] and [0,1,0,1,1] (R22). -/
def Config.gMatrix : BitMatrix 2 5 := #v[0x1D#5, 0x1A#5]

/-- The parity-check matrix H, rows [1,0,1,0,0], [1,1,0,1,0] and [1,1,0,0,1] (R23).
The spec chose it among 24 candidates (D7); log 8. -/
def Config.hMatrix : BitMatrix 3 5 := #v[0x05#5, 0x0B#5, 0x13#5]

/-- FREE VALUE. What `SYN_ROM` holds at power-on or after a loss of power: unspecified (R152, R147, I3, I5); log 6.
The argument is the free-value counter of State. -/
opaque Config.freeSynRom : Nat → Vector SynEntry 8

/-- FREE VALUE. Whether a response the host has not taken yet survives a loss of power: the spec states nothing; log 7.
The argument is the free-value counter of State. -/
opaque Config.freeResponseKept : Nat → Bool

end Sys2Proof
end

