-- ==== Sys2Proof/Syntax.lean ====
section
/-! DEFINITION. The syntax: the fields of a command packet (R56), the nine instructions (R65), the status of a response
(R64) and the fields of a response packet (R62). -/

namespace Sys2Proof

/-- The fields of the format CMD, each with the width R56 gives it. -/
structure Cmd where
  /-- `cmd[3:0]`: the operation. -/
  op : BitVec 4
  /-- `cmd[7:4]`: the length of vector operand A. -/
  alen : BitVec 4
  /-- `A[i] = cmd[15+8i : 8+8i]` (R57). -/
  a : Vector Lane 8
  /-- `cmd[79:72]` (R58). -/
  b : Lane
  /-- `cmd[82:80]`: matrix row count minus one (R59). -/
  mr1 : BitVec 3
  /-- `cmd[85:83]`: matrix column count minus one (R59). -/
  mc1 : BitVec 3
  /-- `cmd[87:86]`: reserved and ignored (R67). -/
  rsv0 : BitVec 2
  /-- `MROW[i] = cmd[95+8i : 88+8i]`; cell `M[i][j]` at bit `j` (R60). -/
  mrow : Vector (BitVec 8) 8
  deriving DecidableEq, Repr

/-- The nine operations, one constructor per row of the opcode table (R65). Each holds the operand fields that the table
gives its row (and R61 lists as read); a length is a count, a lane keeps all its 8 bits. -/
inductive Instr where
  /-- ADD: `a ⊕ b` of bit 0 of `A[0]` and of `B` (R81). -/
  | add (a b : Lane)
  /-- MUL: `a · b` of bit 0 of `A[0]` and of `B` (R82). -/
  | mul (a b : Lane)
  /-- VMUL: vector times the command's `rows × cols` matrix (R85). -/
  | vmul (alen : Nat) (a : Vector Lane 8) (rows cols : Nat) (m : Vector (BitVec 8) 8)
  /-- MVMUL: the command's `rows × cols` matrix times a vector (R86). -/
  | mvmul (alen : Nat) (a : Vector Lane 8) (rows cols : Nat) (m : Vector (BitVec 8) 8)
  /-- ENCODE: message to codeword (R102). -/
  | encode (alen : Nat) (m : Vector Lane 2)
  /-- SYNDROME: syndrome of a received word (R103). -/
  | syndrome (alen : Nat) (r : Vector Lane 5)
  /-- ERRVEC: error vector of a received word, or absent (R104). -/
  | errvec (alen : Nat) (r : Vector Lane 5)
  /-- CORRECT: single-error correction of a received word (R105). -/
  | correct (alen : Nat) (r : Vector Lane 5)
  /-- DECODE: codeword to message (R106). -/
  | decode (alen : Nat) (c : Vector Lane 5)
  deriving DecidableEq, Repr

/-- Why the decoder gives no instruction. -/
inductive DecodeError where
  /-- `OP` selects no operation: 0x0, 0x5–0x7 or 0xD–0xF (R66). The block answers ILLEGAL_OPCODE. -/
  | illegalOpcode (op : BitVec 4)
  /-- A byte sequence holds fewer than the 19 bytes of a packet: not a whole packet (R55, R142 item 2). Only the decoder of
  byte sequences says so; the block itself takes whole packets. -/
  | truncated (bytes : Nat)
  deriving DecidableEq, Repr

/-- The outcome a response reports (R64). -/
inductive Status where
  /-- 0: a result is present. -/
  | ok
  /-- 1: ERRVEC only, the syndrome is unmapped; not an error (R134). -/
  | absent
  /-- 2: wrong length or non-binary element (R131). -/
  | invalidInput
  /-- 3: CORRECT only, the syndrome is unmapped (R132). -/
  | uncorrectable
  /-- 4: `OP` selects no operation (R133). -/
  | illegalOpcode
  deriving DecidableEq, Repr

/-- The fields of the format RSP (R62); the reserved bit `RSV1` is always 0 and has no field. -/
structure Response where
  status : Status
  /-- `RLEN`: length of the result vector, 0–8. -/
  rlen : Nat
  /-- `RBITS`: element `j` at bit `j`. -/
  rbits : BitVec 8
  deriving DecidableEq, Repr

end Sys2Proof
end

