-- ==== Sys2Proof/WellFormed.lean ====
section
/-! DEFINITION. Which instructions have a command packet: the bounds of the length field (R56) and of the matrix
dimensions (R59). Lanes, rows and operands of other kinds are bounded by their types. -/

namespace Sys2Proof

/-- `ALEN` is a 4-bit field, 0–15 (R56). -/
abbrev lenWf (alen : Nat) : Bool := alen ≤ Config.maxLen

/-- A row or column count is 1–8; a zero dimension cannot be encoded (R59). -/
abbrev dimWf (d : Nat) : Bool := 1 ≤ d && d ≤ Config.maxDim

/-- The instruction has an encoding. -/
def Instr.wf : Instr → Bool
  | .add _ _ => true
  | .mul _ _ => true
  | .vmul alen _ rows cols _ => lenWf alen && dimWf rows && dimWf cols
  | .mvmul alen _ rows cols _ => lenWf alen && dimWf rows && dimWf cols
  | .encode alen _ => lenWf alen
  | .syndrome alen _ => lenWf alen
  | .errvec alen _ => lenWf alen
  | .correct alen _ => lenWf alen
  | .decode alen _ => lenWf alen

end Sys2Proof
end

