-- ==== Sys2Proof/Decode.lean ====
section
/-! DEFINITION. Decoding and encoding of command packets: the fields of R56, the opcode map of R65, the byte order of
R42, and the assembly notation of R70. -/

namespace Sys2Proof

/-! ### The fields of a packet (R56) -/

/-- The fields of a packet, each cut out at the bits R56 gives it. -/
def unpackCmd (p : CmdPacket) : Cmd where
  op := p.extractLsb' 0 4
  alen := p.extractLsb' 4 4
  a := Vector.ofFn fun i => p.extractLsb' (8 + 8 * i) 8
  b := p.extractLsb' 72 8
  mr1 := p.extractLsb' 80 3
  mc1 := p.extractLsb' 83 3
  rsv0 := p.extractLsb' 86 2
  mrow := Vector.ofFn fun i => p.extractLsb' (88 + 8 * i) 8

/-- A field placed with its bit 0 at bit `pos` of a packet whose other bits are 0. -/
def place {w : Nat} (pos : Nat) (f : BitVec w) : CmdPacket := f.setWidth 152 <<< pos

/-- Bytes placed one after another, the first with its bit 0 at bit `pos`. -/
def placeAll : Nat → List Byte → CmdPacket
  | _, [] => 0
  | pos, x :: xs => place pos x ||| placeAll (pos + 8) xs

/-- The packet with the given fields, each at the bits R56 gives it. -/
def packCmd (c : Cmd) : CmdPacket :=
  place 0 c.op ||| place 4 c.alen ||| placeAll 8 c.a.toList ||| place 72 c.b |||
    place 80 c.mr1 ||| place 83 c.mc1 ||| place 86 c.rsv0 ||| placeAll 88 c.mrow.toList

/-! ### Decoding -/

/-- The first `n` of the eight lanes: a coder operand's lanes (R68). -/
def firstLanes (n : Nat) (a : Vector Lane 8) : Vector Lane n := Vector.ofFn fun i => a.getD i 0

/-- A dimension from its field: the count minus one (R59). -/
def dimOf (d1 : BitVec 3) : Nat := d1.toNat + 1

/-- The opcode map (R65); every other opcode is reserved and illegal (R66). The fields that R61 does not list for the
operation, and `RSV0`, are dropped (R67). -/
def decodeCmd (c : Cmd) : Except DecodeError Instr :=
  match c.op.toNat with
  | 0x1 => .ok (.add (c.a.getD 0 0) c.b)
  | 0x2 => .ok (.mul (c.a.getD 0 0) c.b)
  | 0x3 => .ok (.vmul c.alen.toNat c.a (dimOf c.mr1) (dimOf c.mc1) c.mrow)
  | 0x4 => .ok (.mvmul c.alen.toNat c.a (dimOf c.mr1) (dimOf c.mc1) c.mrow)
  | 0x8 => .ok (.encode c.alen.toNat (firstLanes 2 c.a))
  | 0x9 => .ok (.syndrome c.alen.toNat (firstLanes 5 c.a))
  | 0xA => .ok (.errvec c.alen.toNat (firstLanes 5 c.a))
  | 0xB => .ok (.correct c.alen.toNat (firstLanes 5 c.a))
  | 0xC => .ok (.decode c.alen.toNat (firstLanes 5 c.a))
  | _ => .error (.illegalOpcode c.op)

/-- The instruction of a command packet, or `illegalOpcode`: total on every packet (R55, R65, R66). -/
def decodePacket (p : CmdPacket) : Except DecodeError Instr := decodeCmd (unpackCmd p)

/-! ### Packets on a byte-wide bus (R42) -/

/-- The bytes of a packet: byte `b` is bits `[8b+7 : 8b]`, byte 0 first (R42). -/
def packetBytes (p : CmdPacket) : List Byte :=
  (List.range Config.cmdBytes).map fun b => p.extractLsb' (8 * b) 8

/-- The packet whose bytes are the first 19 of the list, little-endian by byte (R42). -/
def bytesPacket (bs : List Byte) : CmdPacket := placeAll 0 bs

/-- Decode the packet at the head of a byte sequence, with the bytes that follow it. A sequence too short for a whole
packet is rejected as `truncated` (R55, R142 item 2; log 15). -/
def decodeBytes (bs : List Byte) : Except DecodeError (Instr × List Byte) :=
  if bs.length < Config.cmdBytes then .error (.truncated bs.length)
  else match decodePacket (bytesPacket bs) with
    | .ok i => .ok (i, bs.drop Config.cmdBytes)
    | .error e => .error e

/-- The instruction the decoder reads from the packet whose low `nbits` bits are those of `w` and whose other bits are 0,
laid out as bytes. -/
def decodeTableWord (nbits w : Nat) : Option Instr :=
  match decodeBytes (packetBytes (BitVec.ofNat 152 (w % 2 ^ nbits))) with
  | .ok (i, _) => some i
  | .error _ => none

/-! ### Encoding -/

/-- The packet with every field 0. -/
def zeroCmd : Cmd where
  op := 0
  alen := 0
  a := Vector.replicate 8 0
  b := 0
  mr1 := 0
  mc1 := 0
  rsv0 := 0
  mrow := Vector.replicate 8 0

/-- The opcode of an instruction (R65). -/
def opcodeOf : Instr → BitVec 4
  | .add .. => 0x1
  | .mul .. => 0x2
  | .vmul .. => 0x3
  | .mvmul .. => 0x4
  | .encode .. => 0x8
  | .syndrome .. => 0x9
  | .errvec .. => 0xA
  | .correct .. => 0xB
  | .decode .. => 0xC

/-- Eight lanes: the given ones first, the rest 0. -/
def padLanes {n : Nat} (a : Vector Lane n) : Vector Lane 8 := Vector.ofFn fun i => a.getD i 0

/-- The field of a dimension: the count minus one (R59). -/
def dimField (d : Nat) : BitVec 3 := BitVec.ofNat 3 (d - 1)

/-- The fields of a well-formed instruction; every field the operation ignores is 0, as a host should write it (R67). -/
def encodeCmd (i : Instr) : Cmd :=
  match i with
  | .add a b => { zeroCmd with op := opcodeOf i, a := padLanes #v[a], b := b }
  | .mul a b => { zeroCmd with op := opcodeOf i, a := padLanes #v[a], b := b }
  | .vmul alen a rows cols m =>
    { zeroCmd with op := opcodeOf i, alen := BitVec.ofNat 4 alen, a := a, mr1 := dimField rows, mc1 := dimField cols, mrow := m }
  | .mvmul alen a rows cols m =>
    { zeroCmd with op := opcodeOf i, alen := BitVec.ofNat 4 alen, a := a, mr1 := dimField rows, mc1 := dimField cols, mrow := m }
  | .encode alen m => { zeroCmd with op := opcodeOf i, alen := BitVec.ofNat 4 alen, a := padLanes m }
  | .syndrome alen r => { zeroCmd with op := opcodeOf i, alen := BitVec.ofNat 4 alen, a := padLanes r }
  | .errvec alen r => { zeroCmd with op := opcodeOf i, alen := BitVec.ofNat 4 alen, a := padLanes r }
  | .correct alen r => { zeroCmd with op := opcodeOf i, alen := BitVec.ofNat 4 alen, a := padLanes r }
  | .decode alen c => { zeroCmd with op := opcodeOf i, alen := BitVec.ofNat 4 alen, a := padLanes c }

/-- The command packet of a well-formed instruction. -/
def encode (i : Instr) : CmdPacket := packCmd (encodeCmd i)

/-! ### The assembly notation (R70)

One line of R70 as the packet it stands for: a vector operand sets `ALEN` to the number of listed elements, or to an
explicit `len=n`, and the listed lanes, also those at an index `≥ len`; every unmentioned field is 0. -/

/-- Lanes from a listed vector; the other lanes 0. -/
def asmLanes (xs : List Lane) : Vector Lane 8 := Vector.ofFn fun i => xs.getD i 0

/-- `ALEN` from a listed vector and an optional `len=n`. -/
def asmLen (xs : List Lane) (len : Option Nat) : BitVec 4 := BitVec.ofNat 4 (len.getD xs.length)

/-- One matrix row from its list of bits, element `j` at bit `j`. -/
def asmRow (row : List Bool) : BitVec 8 := BitVec.ofFnLE fun j => row.getD j false

/-- `OP a, b`: the examples of R81 write the one listed element of A with `ALEN` = 1, which ADD and MUL ignore. -/
def asmScalar (op : BitVec 4) (a b : Lane) (len : Option Nat := none) : CmdPacket :=
  packCmd { zeroCmd with op := op, alen := asmLen [a] len, a := asmLanes [a], b := b }

/-- `OP [v0, …] len=n`. -/
def asmCoder (op : BitVec 4) (xs : List Lane) (len : Option Nat := none) : CmdPacket :=
  packCmd { zeroCmd with op := op, alen := asmLen xs len, a := asmLanes xs }

/-- `OP [v0, …] len=n, r x c, [[row0], …]`. -/
def asmMatrix (op : BitVec 4) (xs : List Lane) (r c : Nat) (rows : List (List Bool)) (len : Option Nat := none) : CmdPacket :=
  packCmd { zeroCmd with
    op := op, alen := asmLen xs len, a := asmLanes xs, mr1 := dimField r, mc1 := dimField c,
    mrow := Vector.ofFn fun i => asmRow (rows.getD i []) }

end Sys2Proof
end

