-- ==== Sys2Proof/Machine/Gf2.lean ====
section
/-! DEFINITION. The GF(2) arithmetic of R12, R83 and R84, the syndrome key of R25 and the table build of R150, as functions
of plain values. -/

namespace Sys2Proof.Machine

/-- `bit0(x)` of a lane (R12). -/
def bit0 (x : Lane) : Bool := x.getLsbD 0

/-- GF(2) addition of two Bits: XOR (R81). -/
def gfAdd (a b : Bool) : Bool := a ^^ b

/-- GF(2) multiplication of two Bits: AND (R82). -/
def gfMul (a b : Bool) : Bool := a && b

/-- `Σ⊕_{i<n} f i`, the GF(2) sum; the empty sum is 0 (R12). -/
def gfSum : Nat → (Nat → Bool) → Bool
  | 0, _ => false
  | n + 1, f => gfAdd (gfSum n f) (f n)

/-- `M[i][j]` (R11). -/
def cell {r c : Nat} (m : BitMatrix r c) (i j : Nat) : Bool := (m.getD i 0#c).getLsbD j

/-- `vxm(v, M, r, c)`: vector times matrix (R83). -/
def vxm {r c : Nat} (v : BitVec r) (m : BitMatrix r c) : BitVec c :=
  BitVec.ofFnLE fun j => gfSum r fun i => gfMul (v.getLsbD i) (cell m i j)

/-- `mxv(M, v, r, c)`: matrix times vector (R84). -/
def mxv {r c : Nat} (m : BitMatrix r c) (v : BitVec c) : BitVec r :=
  BitVec.ofFnLE fun i => gfSum c fun j => gfMul (cell m i j) (v.getLsbD j)

/-- `key(s) = 4·s[0] + 2·s[1] + s[2]`, in 0–7 (R25). -/
def key (s : BitVec 3) : Fin 8 :=
  ⟨4 * (s.getLsbD 0).toNat + 2 * (s.getLsbD 1).toNat + (s.getLsbD 2).toNat, by
    have h0 := Bool.toNat_le (s.getLsbD 0)
    have h1 := Bool.toNat_le (s.getLsbD 1)
    have h2 := Bool.toNat_le (s.getLsbD 2)
    omega⟩

/-- The vector of length 5 whose only set element is `p` (R150). -/
def unitVector (p : Nat) : BitVec 5 := BitVec.twoPow 5 p

/-- The syndrome table a reset builds from a parity-check matrix (R150): all entries unmapped, then for each position
the entry at the syndrome of the single error there, then the entry of the zero syndrome. -/
def buildSynRom (h : BitMatrix 3 5) : Vector SynEntry 8 :=
  ((List.range 5).foldl (fun t p => t.set (key (mxv h (unitVector p))) { v := true, e := unitVector p })
    (Vector.replicate 8 { v := false, e := 0 })).set 0 { v := true, e := 0 }

end Sys2Proof.Machine
end

