-- ==== Sys2Proof/Machine/State.lean ====
section
/-! DEFINITION. The state of the block and of its host interface, the reasons a step stops, and the state after reset. -/

namespace Sys2Proof.Machine

/-- What can happen at the block's interface (R7, R142, R147, R153). The host, or a platform arbiter in front of several
hosts (R145), chooses the events and their order; log 1, log 14. -/
inductive HostEvent where
  /-- The host presents one whole command packet (R142 item 2). -/
  | command (p : CmdPacket)
  /-- The host receives the response to its last command (R142 item 2, R157). -/
  | takeResponse
  /-- The host asserts reset (R150, R153). -/
  | reset
  /-- Power is lost and returns (R147). -/
  | powerLoss
  deriving DecidableEq, Repr

/-- Why the machine stops with a fault. The block has no traps and reports every error in a response, after which it goes
on (R130, R139), so there is no fault; log 16. Safe. -/
inductive Fault where
  deriving DecidableEq, Repr

/-- Why a step has no meaning. -/
inductive Refusal where
  /-- Raised by `exec` for an instruction that has no meaning in the model. Safe. -/
  | notModelled (mnemonic : String)
  /-- Raised by every command while `BUILT` = 0: "A command issued while `BUILT = 0` is refused by the model" (R152, I4). Safe. -/
  | beforeReset
  /-- Raised by every command the host presents before it has received the previous response: "a model refuses such an
  overlap" (R157, I6). Safe. -/
  | overlappingCommand
  /-- Raised when the host receives a response and there is none: the block's behaviour is specified only for a host that
  takes exactly one RSP per CMD (R142 item 2); log 3. Safe. -/
  | noResponse
  deriving DecidableEq, Repr

/-- The state. The first four fields are all the state the block has (R21, R35); the others are the model's own and carry
the transaction of R7 across a step (log 1, log 2, log 6). -/
structure State where
  /-- `G_ROM`, 2 rows × 5 bits, hardwired (R21, R22). -/
  gRom : BitMatrix 2 5
  /-- `H_ROM`, 3 rows × 5 bits, hardwired (R21, R23). -/
  hRom : BitMatrix 3 5
  /-- `SYN_ROM`, 8 entries × 6 bits, written by reset only (R21, R24). -/
  synRom : Vector SynEntry 8
  /-- The spec's ghost flag `BUILT` (R152). -/
  built : Bool
  /-- MODEL'S OWN. What happens at the interface from now on, oldest first (log 1). -/
  inputs : List HostEvent
  /-- MODEL'S OWN. The response to the last command while the host has not received it (R7, R157; log 2). -/
  response : Option RspPacket
  /-- MODEL'S OWN. The host's record of the responses it has received, oldest first; the block never reads it (R34; log 2). -/
  received : List RspPacket
  /-- MODEL'S OWN. How many free values have been drawn (log 6). -/
  freeCount : Nat
  deriving DecidableEq, Repr

/-- The machine at power-on, before the first reset: `SYN_ROM` unspecified, `BUILT` = 0, the hardwired matrices present
(R35, R151, R152). -/
def State.powerOn : State where
  gRom := Config.gMatrix
  hRom := Config.hMatrix
  synRom := Config.freeSynRom 0
  built := false
  inputs := []
  response := none
  received := []
  freeCount := 1

/-- The machine right after the first reset (R35, R150). The reset values of the model's own fields are DESIGN CHOICE
(log 1, log 2, log 6). -/
def State.reset : State where
  gRom := Config.gMatrix
  hRom := Config.hMatrix
  synRom := buildSynRom Config.hMatrix
  built := true
  inputs := []
  response := none
  received := []
  freeCount := 1

end Sys2Proof.Machine
end

