-- ==== Sys2Proof/Machine/Flags.lean ====
section
/-! DEFINITION. The condition a response reports. The block has no flags (R30); the only condition indication is the
STATUS of each response, packed with the result into 16 bits (R62, R63, R64). -/

namespace Sys2Proof.Machine

/-- The STATUS code (R64). -/
def statusCode : Status → BitVec 3
  | .ok => 0
  | .absent => 1
  | .invalidInput => 2
  | .uncorrectable => 3
  | .illegalOpcode => 4

/-- Bit `k` of the packet of a response, by the table of R62: STATUS at [2:0], `RSV1` = 0 at [3] (R63), RLEN at [7:4],
RBITS at [15:8]. -/
def rspBit (r : Response) (k : Nat) : Bool :=
  if k < 3 then (statusCode r.status).getLsbD k
  else if k < 4 then false
  else if k < 8 then (BitVec.ofNat 4 r.rlen).getLsbD (k - 4)
  else r.rbits.getLsbD (k - 8)

/-- The response packet (R62, R63). -/
def packResponse (r : Response) : RspPacket := BitVec.ofFnLE fun k => rspBit r k

/-- `STATUS` of a response packet (R62). -/
def rspStatus (p : RspPacket) : BitVec 3 := p.extractLsb' 0 3

/-- `RSV1` of a response packet (R62). -/
def rspRsv1 (p : RspPacket) : Bool := p.getLsbD 3

/-- `RLEN` of a response packet (R62). -/
def rspLen (p : RspPacket) : Nat := (p.extractLsb' 4 4).toNat

/-- Element `j` of a response packet's result: bit `8+j` (R62). -/
def rspElem (p : RspPacket) (j : Nat) : Bool := p.getLsbD (8 + j)

/-- The two bytes of a response packet on a byte-wide bus, byte 0 first (R42). -/
def rspBytes (p : RspPacket) : List Byte := [p.extractLsb' 0 8, p.extractLsb' 8 8]

end Sys2Proof.Machine
end

