-- ==== Sys2Proof/Machine/Operands.lean ====
section
/-! DEFINITION. The operand forms: the validated vector of a coder command (R68, R100) and the unvalidated lanes and the
matrix of an arithmetic command (R69, R85, R86). -/

namespace Sys2Proof.Machine

/-- A lane holds a Bit. -/
def isBit (x : Lane) : Bool := x == 0 || x == 1

/-- `validBits(n)`: `ALEN` is `n` and the first `n` lanes are 0 or 1 (R100). The operand's lanes are exactly those `n`. -/
def validBits {n : Nat} (alen : Nat) (a : Vector Lane n) : Bool := alen == n && a.toList.all isBit

/-- The Bit vector of accepted lanes (R68, R100). -/
def coderVector {n : Nat} (a : Vector Lane n) : BitVec n := BitVec.ofFnLE fun i => bit0 a[i]

/-- The vector of an arithmetic command: bit 0 of each of the first `n` lanes, unchecked (R69). -/
def arithVector (n : Nat) (a : Vector Lane 8) : BitVec n := BitVec.ofFnLE fun i => bit0 (a.getD i 0)

/-- The matrix of an arithmetic command: the cells with `i < rows` and `j < cols` (R60). -/
def commandMatrix (rows cols : Nat) (m : Vector (BitVec 8) 8) : BitMatrix rows cols :=
  Vector.ofFn fun i => (m.getD i 0).setWidth cols

end Sys2Proof.Machine
end

