-- ==== Sys2Proof/Machine/Ops.lean ====
section
/-! DEFINITION. The shared operations: reading the tables, answering a command, raising an error, and the events of the
host interface. The block has no memory and no registers (R20, R40), no trap entry and no return from one (R139, R140):
an error is raised by answering with its status. -/

namespace Sys2Proof.Machine

/-! ### Table reads (R13, R44) -/

/-- `ROMRead(G_ROM, i)`. -/
def romReadG (s : State) (i : Fin 2) : BitVec 5 := s.gRom.get i

/-- `ROMRead(H_ROM, i)`; index 3 does not exist and is never formed (R40). -/
def romReadH (s : State) (i : Fin 3) : BitVec 5 := s.hRom.get i

/-- `ROMRead(SYN_ROM, k)`; all 8 entries exist (R40). -/
def romReadSyn (s : State) (k : Fin 8) : SynEntry := s.synRom.get k

/-- G as ENCODE reads it, rows 0 and 1 (R102). -/
def readG (s : State) : BitMatrix 2 5 := #v[romReadG s 0, romReadG s 1]

/-- H as SYNDROME, ERRVEC and CORRECT read it, rows 0–2 (R41, R103). -/
def readH (s : State) : BitMatrix 3 5 := #v[romReadH s 0, romReadH s 1, romReadH s 2]

/-- The syndrome `mxv(H, r, 3, 5)` of a received word (R103). -/
def syndromeOf (s : State) (r : BitVec 5) : BitVec 3 := mxv (readH s) r

/-- The syndrome-table entry of a received word, `ROMRead(SYN_ROM, key(s))` (R104, R105). -/
def lookup (s : State) (r : BitVec 5) : SynEntry := romReadSyn s (key (syndromeOf s r))

/-! ### Answering a command -/

/-- `respond(st, n, bits)`: ends the command with its one response and no other effect (R13, R7). A command before the
first reset is refused (R152), and so is one presented before the host has received the previous response (R157). -/
def respond (st : Status) (n : Nat) (bits : BitVec n) (s : State) : Host.Outcome State Fault Refusal :=
  if s.built then
    if s.response.isNone then
      .next { s with response := some (packResponse { status := st, rlen := n, rbits := bits.setWidth 8 }) }
    else .refused .overlappingCommand
  else .refused .beforeReset

/-- A response that carries no result: RLEN = 0 and RBITS = 0 (R135). The one way an error is taken (R130, R139). -/
def raise (st : Status) (s : State) : Host.Outcome State Fault Refusal := respond st 0 0#0 s

/-- `raise InvalidInput` (R13, R131). -/
def raiseInvalidInput (s : State) : Host.Outcome State Fault Refusal := raise .invalidInput s

/-- `raise UncorrectableError` (R13, R132). -/
def raiseUncorrectable (s : State) : Host.Outcome State Fault Refusal := raise .uncorrectable s

/-- `raise IllegalOpcode` (R13, R133). -/
def raiseIllegalOpcode (s : State) : Host.Outcome State Fault Refusal := raise .illegalOpcode s

/-! ### The host's events -/

/-- The host receives the outstanding response (R142 item 2, R157). -/
def takeResponse (s : State) : Host.Outcome State Fault Refusal :=
  match s.response with
  | some r => .next { s with response := none, received := s.received ++ [r] }
  | none => .refused .noResponse

/-- Reset: builds `SYN_ROM` from `H_ROM` and sets `BUILT`; nothing else changes (R150, R151; log 5). -/
def resetBlock (s : State) : State := { s with synRom := buildSynRom s.hRom, built := true }

/-- A loss of power: `BUILT` = 0 and `SYN_ROM` unspecified until the next reset (R147, R152, I5; log 6). Whether an
outstanding response survives is a free value (log 7). The hardwired matrices stay (R151). -/
def powerLoss (s : State) : State :=
  { s with
    synRom := Config.freeSynRom s.freeCount
    built := false
    response := if Config.freeResponseKept s.freeCount then s.response else none
    freeCount := s.freeCount + 1 }

end Sys2Proof.Machine
end

