-- ==== Sys2Proof/Machine/Arith.lean ====
section
/-! DEFINITION. The meanings of the GF(2) arithmetic module: ADD, MUL, VMUL, MVMUL (R80–R88). None reads a table. -/

namespace Sys2Proof.Machine

/-- ADD (R81). -/
def execAdd (a b : Lane) (s : State) : Host.Outcome State Fault Refusal :=
  respond .ok 1 (BitVec.ofBool (gfAdd (bit0 a) (bit0 b))) s

/-- MUL (R82). -/
def execMul (a b : Lane) (s : State) : Host.Outcome State Fault Refusal :=
  respond .ok 1 (BitVec.ofBool (gfMul (bit0 a) (bit0 b))) s

/-- VMUL (R85). -/
def execVmul (alen : Nat) (a : Vector Lane 8) (rows cols : Nat) (m : Vector (BitVec 8) 8) (s : State) :
    Host.Outcome State Fault Refusal :=
  if alen ≠ rows then raiseInvalidInput s
  else respond .ok cols (vxm (arithVector rows a) (commandMatrix rows cols m)) s

/-- MVMUL (R86). -/
def execMvmul (alen : Nat) (a : Vector Lane 8) (rows cols : Nat) (m : Vector (BitVec 8) 8) (s : State) :
    Host.Outcome State Fault Refusal :=
  if alen ≠ cols then raiseInvalidInput s
  else respond .ok rows (mxv (commandMatrix rows cols m) (arithVector cols a)) s

end Sys2Proof.Machine
end

