-- ==== Sys2Proof/Machine/Coder.lean ====
section
/-! DEFINITION. The meanings of the linear coder: ENCODE, SYNDROME, ERRVEC, CORRECT, DECODE (R100–R110). Each validates its
operand before anything else (R101). -/

namespace Sys2Proof.Machine

/-- ENCODE (R102). -/
def execEncode (alen : Nat) (m : Vector Lane 2) (s : State) : Host.Outcome State Fault Refusal :=
  if validBits alen m then respond .ok 5 (vxm (coderVector m) (readG s)) s
  else raiseInvalidInput s

/-- SYNDROME (R103). -/
def execSyndrome (alen : Nat) (r : Vector Lane 5) (s : State) : Host.Outcome State Fault Refusal :=
  if validBits alen r then respond .ok 3 (syndromeOf s (coderVector r)) s
  else raiseInvalidInput s

/-- ERRVEC (R104): ABSENT is a result, not an error (R134). -/
def execErrvec (alen : Nat) (r : Vector Lane 5) (s : State) : Host.Outcome State Fault Refusal :=
  if validBits alen r then
    let entry := lookup s (coderVector r)
    if entry.v then respond .ok 5 entry.e s else respond .absent 0 0#0 s
  else raiseInvalidInput s

/-- CORRECT (R105). -/
def execCorrect (alen : Nat) (r : Vector Lane 5) (s : State) : Host.Outcome State Fault Refusal :=
  if validBits alen r then
    let entry := lookup s (coderVector r)
    if entry.v then respond .ok 5 (coderVector r ^^^ entry.e) s else raiseUncorrectable s
  else raiseInvalidInput s

/-- DECODE (R106): the first two elements; the operand need not be a codeword. -/
def execDecode (alen : Nat) (c : Vector Lane 5) (s : State) : Host.Outcome State Fault Refusal :=
  if validBits alen c then respond .ok 2 ((coderVector c).setWidth 2) s
  else raiseInvalidInput s

end Sys2Proof.Machine
end

