-- ==== Sys2Proof/Machine/Dispatch.lean ====
section
/-! DEFINITION. One arm per instruction (R65). -/

namespace Sys2Proof.Machine

def exec (i : Instr) (s : State) : Host.Outcome State Fault Refusal :=
  match i with
  | .add a b => Sys2Proof.Machine.execAdd a b s
  | .mul a b => Sys2Proof.Machine.execMul a b s
  | .vmul alen a rows cols m => Sys2Proof.Machine.execVmul alen a rows cols m s
  | .mvmul alen a rows cols m => Sys2Proof.Machine.execMvmul alen a rows cols m s
  | .encode alen m => Sys2Proof.Machine.execEncode alen m s
  | .syndrome alen r => Sys2Proof.Machine.execSyndrome alen r s
  | .errvec alen r => Sys2Proof.Machine.execErrvec alen r s
  | .correct alen r => Sys2Proof.Machine.execCorrect alen r s
  | .decode alen c => Sys2Proof.Machine.execDecode alen c s

end Sys2Proof.Machine
end

