-- ==== Sys2Proof/Machine/Step.lean ====
section
/-! DEFINITION. One step: the oldest event of the host interface happens. -/

namespace Sys2Proof.Machine

/-- One command packet: decoded first (R101, R136), then executed; a packet that selects no operation is answered with
ILLEGAL_OPCODE (R66). -/
def runCommand (p : CmdPacket) (s : State) : Host.Outcome State Fault Refusal :=
  match decodePacket p with
  | .ok i => exec i s
  | .error _ => raiseIllegalOpcode s

/-- One atomic step (R7, R44): the oldest event is consumed. With no event the block is idle and nothing changes (R147,
R154; log 1). -/
def step (s : State) : Host.Outcome State Fault Refusal :=
  match s.inputs with
  | [] => .next s
  | .command p :: rest => runCommand p { s with inputs := rest }
  | .takeResponse :: rest => takeResponse { s with inputs := rest }
  | .reset :: rest => .next (resetBlock { s with inputs := rest })
  | .powerLoss :: rest => .next (powerLoss { s with inputs := rest })

/-- The state with the command packet whose low `nbits` bits are those of `w` (the others 0) presented as the very next
event, and with no response outstanding, so that it does not overlap an earlier command (R157; log 1). -/
def State.withFetchWord (s : State) (nbits w : Nat) : State :=
  { s with
    inputs := .command (BitVec.ofNat 152 (w % 2 ^ nbits)) :: s.inputs
    response := none }

end Sys2Proof.Machine
end

