-- ==== Sys2Proof/Safety.lean ====
section
/-! DEFINITION. The terms claims use: when a command can be answered, what every state of a run satisfies, what a host
owes the block (R142), and the code the coder works on (R26). -/

namespace Sys2Proof.Machine

/-! ### States -/

/-- A command is answered in this state: reset has happened (R152, R155) and the host has received the previous response
(R157). -/
abbrev State.ready (s : State) : Prop := s.built = true ∧ s.response = none

/-- The image of `SYN_ROM` after reset, written out from the table of R27. -/
def synImage : Vector SynEntry 8 :=
  #v[⟨true, 0b00000⟩, ⟨true, 0b10000⟩, ⟨true, 0b01000⟩, ⟨true, 0b00010⟩,
     ⟨true, 0b00100⟩, ⟨false, 0b00000⟩, ⟨false, 0b00000⟩, ⟨true, 0b00001⟩]

/-- The form every response has: a STATUS that is produced (R64), `RSV1` = 0, a length of at most 8, no bit at an index
`≥ RLEN` (R62, R63), and no result with a STATUS other than OK (R135). -/
abbrev legalResponse (p : RspPacket) : Prop :=
  (rspStatus p).toNat ≤ 4 ∧ rspRsv1 p = false ∧ rspLen p ≤ 8 ∧
  (∀ j < 8, rspLen p ≤ j → rspElem p j = false) ∧
  (rspStatus p ≠ 0 → rspLen p = 0)

/-- What holds of every state of a run: the matrices are the hardwired ones (R151), the syndrome table is the image of
R27 once reset has happened (R153), and every response is legal. -/
abbrev State.Inv (s : State) : Prop :=
  s.gRom = Config.gMatrix ∧ s.hRom = Config.hMatrix ∧
  (s.built = true → s.synRom = synImage) ∧
  (∀ p ∈ s.response.toList, legalResponse p) ∧ (∀ p ∈ s.received, legalResponse p)

/-! ### The host (R142) -/

/-- The events from here on keep duties 1 and 2 of R142 (no command before reset or before the previous response, no
response received when there is none), and power is not lost while a response is outstanding. The last is no duty of R142
but a premise of the model's, since what then becomes of the response is a free value (log 7). A reset while a response is
outstanding is allowed (log 5). `built` and `outstanding` say how the block stands. -/
def dutiful : (built outstanding : Bool) → List HostEvent → Bool
  | _, _, [] => true
  | built, outstanding, .command _ :: es => built && !outstanding && dutiful built true es
  | built, outstanding, .takeResponse :: es => outstanding && dutiful built false es
  | _, outstanding, .reset :: es => dutiful true outstanding es
  | _, outstanding, .powerLoss :: es => !outstanding && dutiful false false es

/-- The command packets among a list of events, in order. -/
def commandsOf : List HostEvent → List CmdPacket
  | [] => []
  | .command p :: es => p :: commandsOf es
  | .takeResponse :: es => commandsOf es
  | .reset :: es => commandsOf es
  | .powerLoss :: es => commandsOf es

/-- The host presents the packets one by one and receives each response (R142 item 2). -/
def script : List CmdPacket → List HostEvent
  | [] => []
  | p :: ps => .command p :: .takeResponse :: script ps

/-- The response to one packet presented right after reset with nothing before it. -/
def soloResponse (p : CmdPacket) : Option RspPacket :=
  match step { State.reset with inputs := [.command p] } with
  | .next t => t.response
  | .fault _ => none
  | .refused _ => none

/-- Duty 3 of R142: an element in 0–255 is its own lane value, any other element becomes a lane value in 2–255 (R57, D6;
log 17). -/
abbrev LaneDuty (f : Int → Lane) : Prop :=
  (∀ x : Int, 0 ≤ x → x ≤ 255 → ((f x).toNat : Int) = x) ∧
  (∀ x : Int, x < 0 ∨ 255 < x → 2 ≤ (f x).toNat)

/-! ### Operands and results -/

/-- Every lane is 0 or 1. -/
abbrev binary {n : Nat} (a : Vector Lane n) : Prop := ∀ i : Fin n, a[i] = 0 ∨ a[i] = 1

/-- The lanes that present a Bit vector. -/
def lanesOf {n : Nat} (x : BitVec n) : Vector Lane n := Vector.ofFn fun i => if x[i] then 1 else 0

/-- The 16 bits of an OK response with the result vector `x` (R62): STATUS 0, RLEN `n`, element `j` at bit `8+j`. -/
def okPacket {n : Nat} (x : BitVec n) : RspPacket := (x.setWidth 16 <<< 8) ||| BitVec.ofNat 16 (16 * n)

/-- `⊕_{i<n} f i`, written as a fold. -/
def xorAll (n : Nat) (f : Nat → Bool) : Bool := (List.range n).foldl (fun acc i => acc ^^ f i) false

/-! ### The code (R26) -/

/-- The four valid codewords [0,0,0,0,0], [1,0,1,1,1], [0,1,0,1,1], [1,1,1,0,0], element `j` at bit `j`. -/
def codewords : List (BitVec 5) := [0b00000#5, 0b11101#5, 0b11010#5, 0b00111#5]

/-- The number of set elements. -/
def weight {n : Nat} (x : BitVec n) : Nat := ((List.range n).filter x.getLsbD).length

/-- The number of elements in which two words differ. -/
def distance {n : Nat} (x y : BitVec n) : Nat := weight (x ^^^ y)

/-! ### The causes of INVALID_INPUT (R131) -/

/-- The table of R131: what makes each command answer INVALID_INPUT. -/
def invalidInputCause : Instr → Prop
  | .add _ _ => False
  | .mul _ _ => False
  | .vmul alen _ rows _ _ => alen ≠ rows
  | .mvmul alen _ _ cols _ => alen ≠ cols
  | .encode alen m => alen ≠ 2 ∨ ∃ k : Fin 2, m[k] ≠ 0 ∧ m[k] ≠ 1
  | .syndrome alen r => alen ≠ 5 ∨ ∃ k : Fin 5, r[k] ≠ 0 ∧ r[k] ≠ 1
  | .errvec alen r => alen ≠ 5 ∨ ∃ k : Fin 5, r[k] ≠ 0 ∧ r[k] ≠ 1
  | .correct alen r => alen ≠ 5 ∨ ∃ k : Fin 5, r[k] ≠ 0 ∧ r[k] ≠ 1
  | .decode alen r => alen ≠ 5 ∨ ∃ k : Fin 5, r[k] ≠ 0 ∧ r[k] ≠ 1

/-! ### The order of the conditions (R136) -/

/-- The vector length the operation of a packet needs, if it needs one (R85, R86, R100). -/
def neededLen (p : CmdPacket) : Option Nat :=
  match (p.extractLsb' 0 4).toNat with
  | 0x3 => some ((p.extractLsb' 80 3).toNat + 1)
  | 0x4 => some ((p.extractLsb' 83 3).toNat + 1)
  | 0x8 => some 2
  | 0x9 => some 5
  | 0xA => some 5
  | 0xB => some 5
  | 0xC => some 5
  | _ => none

/-- How many lanes the operation of a packet checks for Bits (R100). -/
def checkedLanes (p : CmdPacket) : Nat := if 0x8 ≤ (p.extractLsb' 0 4).toNat then (neededLen p).getD 0 else 0

/-- The word formed by bit 0 of lanes 0–4 has one of the two unmapped syndromes, [1,0,1] and [1,1,0] (R28). -/
def unmappedWord (p : CmdPacket) : Bool :=
  let word : BitVec 5 := BitVec.ofFnLE fun i => p.getLsbD (8 + 8 * i)
  mxv Config.hMatrix word == 0b101 || mxv Config.hMatrix word == 0b011

/-- The STATUS code of the first condition that holds of a packet, in the order of R136. -/
def priorityStatus (p : CmdPacket) : BitVec 3 :=
  let op := p.extractLsb' 0 4
  if op ∈ [0x0#4, 0x5#4, 0x6#4, 0x7#4, 0xD#4, 0xE#4, 0xF#4] then 4
  else if neededLen p ≠ none ∧ neededLen p ≠ some (p.extractLsb' 4 4).toNat then 2
  else if ∃ i < checkedLanes p, p.extractLsb' (8 + 8 * i) 8 ≠ 0 ∧ p.extractLsb' (8 + 8 * i) 8 ≠ 1 then 2
  else if op = 0xB ∧ unmappedWord p then 3
  else if op = 0xA ∧ unmappedWord p then 1
  else 0

/-! ### The fields an operation reads (R61) -/

/-- Bit `k` of packet `p` lies in a field that R61 lists for the operation `p` selects. -/
def listedBit (p : CmdPacket) (k : Nat) : Bool :=
  let rows := (p.extractLsb' 80 3).toNat + 1
  let cols := (p.extractLsb' 83 3).toNat + 1
  let isCell := 88 ≤ k && (k - 88) / 8 < rows && (k - 88) % 8 < cols
  let isLaneBit0 (n : Nat) := 8 ≤ k && (k - 8) % 8 == 0 && (k - 8) / 8 < n
  k < 4 ||
  match (p.extractLsb' 0 4).toNat with
  | 0x1 => k == 8 || k == 72
  | 0x2 => k == 8 || k == 72
  | 0x3 => k < 8 || isLaneBit0 rows || (80 ≤ k && k < 86) || isCell
  | 0x4 => k < 8 || isLaneBit0 cols || (80 ≤ k && k < 86) || isCell
  | 0x8 => k < 24
  | 0x9 => k < 48
  | 0xA => k < 48
  | 0xB => k < 48
  | 0xC => k < 48
  | _ => false

end Sys2Proof.Machine
end

