-- ==== Sys2Proof/Certificates/Slice0/Obligations.lean ====
section
/-! DEFINITION. The statements for the provers. -/

open Sys2Proof Sys2Proof.Machine

/-! ### Reset, power and the interface -/

/-- R35: the value of every piece of the block's state after reset, with the table image of R27 written out, and at power-on,
where `SYN_ROM` is unspecified: a free value, of which nothing can be proved. The numbers are those of R22, R23 and R27. -/
def Obligations.ResetValues : Prop :=
  State.reset.gRom = #v[0x1D#5, 0x1A#5] ∧ State.reset.hRom = #v[0x05#5, 0x0B#5, 0x13#5] ∧
  State.reset.synRom =
    #v[⟨true, 0b00000⟩, ⟨true, 0b10000⟩, ⟨true, 0b01000⟩, ⟨true, 0b00010⟩,
       ⟨true, 0b00100⟩, ⟨false, 0b00000⟩, ⟨false, 0b00000⟩, ⟨true, 0b00001⟩] ∧
  State.reset.built = true ∧
  State.powerOn.gRom = State.reset.gRom ∧ State.powerOn.hRom = State.reset.hRom ∧ State.powerOn.built = false ∧
  State.powerOn.synRom = Config.freeSynRom 0

/-- The state after reset is what the reset event makes of the state at power-on. The model's own fields (log 1, log 2,
log 6) have equal values in both, by the model's choice. -/
def Obligations.ResetIsFirstResetAfterPowerOn : Prop :=
  step { State.powerOn with inputs := [.reset] } = .next State.reset

/-- The invariant holds at reset. -/
def Obligations.InvHoldsAtReset : Prop := State.reset.Inv

/-- Every step keeps the invariant, whatever the host does: the matrices stay the hardwired ones, the table is the image of
R27 whenever reset has happened, and every response is legal. -/
def Obligations.StepKeepsInv : Prop :=
  ∀ s t : State, s.Inv → step s = .next t → t.Inv

/-- What a reset builds from a parity-check matrix, for every matrix whose five columns give five distinct non-zero
syndromes: the entry at the syndrome of a single error holds that error, entry 0 holds the zero vector, and every other
entry is unmapped and holds 0. No write of the loop of R150 is overwritten. -/
def Obligations.ResetBuildsSyndromeTable : Prop :=
  ∀ s : State,
    (∀ p < 5, mxv s.hRom (unitVector p) ≠ 0) →
    (∀ p < 5, ∀ q < 5, mxv s.hRom (unitVector p) = mxv s.hRom (unitVector q) → p = q) →
    (resetBlock s).built = true ∧
    (∀ p < 5, (resetBlock s).synRom.get (key (mxv s.hRom (unitVector p))) = ⟨true, unitVector p⟩) ∧
    (resetBlock s).synRom.get 0 = ⟨true, 0⟩ ∧
    (∀ k : Fin 8, k ≠ 0 → (∀ p < 5, k ≠ key (mxv s.hRom (unitVector p))) → (resetBlock s).synRom.get k = ⟨false, 0⟩)

/-- R153 (which the spec derives from R150 and R32): a reset between two commands of a run changes nothing observable, any
number of resets does what one does, and after any reset of a run the table is the image of R27. The first clause also covers
states with a response outstanding; that a reset leaves it there is the model's choice (log 5), no rule of the spec. -/
def Obligations.SecondResetChangesNothing : Prop :=
  (∀ (s : State) (rest : List HostEvent), s.Inv → s.built = true →
    step { s with inputs := .reset :: rest } = .next { s with inputs := rest }) ∧
  (∀ s : State, resetBlock (resetBlock s) = resetBlock s) ∧
  (∀ s : State, s.Inv → (resetBlock s).synRom = synImage)

/-- R152: before the first reset `SYN_ROM` is unspecified (a free value, log 6), `BUILT` is 0 at power-on, reset sets it, and
while it is 0 every command is refused, whatever its packet. In states that also have a response outstanding R157 refuses
too; that the refusal is then `beforeReset` and not `overlappingCommand` is the model's choice (log 4), the spec not ordering
the two. -/
def Obligations.CommandBeforeResetRefused : Prop :=
  State.powerOn.synRom = Config.freeSynRom 0 ∧ State.powerOn.built = false ∧ (∀ s : State, (resetBlock s).built = true) ∧
  ∀ (s : State) (p : CmdPacket) (rest : List HostEvent), s.built = false →
    step { s with inputs := .command p :: rest } = .refused .beforeReset

/-- After a loss of power commands are refused until reset ("After power returns, reset must be asserted again", R147), the
hardwired matrices are still there (R151), and a reset then restores the table of a run, whatever the free values were. That a
loss of power returns `BUILT` to 0 is the model's treatment after I5 (log 6); that the refusal is `beforeReset` even when a
response survived the loss, and that it may survive, are the model's choices (log 4, log 7), and so is that the host's record
`received` stays (log 7). -/
def Obligations.PowerLossNeedsReset : Prop :=
  ∀ (s : State) (p : CmdPacket) (rest : List HostEvent), s.Inv →
    (∃ t, step { s with inputs := .powerLoss :: .command p :: rest } = .next t ∧ step t = .refused .beforeReset) ∧
    (∃ t u, step { s with inputs := .powerLoss :: .reset :: rest } = .next t ∧ step t = .next u ∧
      u.gRom = Config.gMatrix ∧ u.hRom = Config.hMatrix ∧ u.synRom = synImage ∧ u.built = true ∧
      u.inputs = rest ∧ u.received = s.received)

/-- R157: a command presented before the host has received the previous response is refused, whatever its packet. -/
def Obligations.OverlapRefused : Prop :=
  ∀ (s : State) (p : CmdPacket) (r : RspPacket) (rest : List HostEvent), s.built = true → s.response = some r →
    step { s with inputs := .command p :: rest } = .refused .overlappingCommand

/-- The rest of the interface, as the model has it (log 1, log 2, log 3): an idle block changes nothing, the host receives
the outstanding response once, and there is none to receive otherwise. -/
def Obligations.IdleAndTakeResponse : Prop :=
  (∀ s : State, s.inputs = [] → step s = .next s) ∧
  (∀ (s : State) (r : RspPacket) (rest : List HostEvent), s.response = some r →
    step { s with inputs := .takeResponse :: rest } =
      .next { s with inputs := rest, response := none, received := s.received ++ [r] }) ∧
  (∀ (s : State) (rest : List HostEvent), s.response = none →
    step { s with inputs := .takeResponse :: rest } = .refused .noResponse)

/-! ### Encoding -/

/-- Words of R81–R106's examples, written out bit by bit as hexadecimal numbers, decode to the instructions they stand for. -/
def Obligations.ExampleWordsDecode : Prop :=
  decodePacket 0x00000000000000000001000000000000000111 = .ok (.add 1 1) ∧
  decodePacket 0x0000000000001A1D2100000000000000010123 =
    .ok (.vmul 2 #v[1, 1, 0, 0, 0, 0, 0, 0] 2 5 #v[0x1D, 0x1A, 0, 0, 0, 0, 0, 0]) ∧
  decodePacket 0x00000000000000000000000000000000000128 = .ok (.encode 2 #v[1, 0]) ∧
  decodePacket 0x0000000000000000000000000000010100015B = .ok (.correct 5 #v[1, 0, 1, 1, 0]) ∧
  decodePacket 0x0000000000000000000000000001010100015F = .error (.illegalOpcode 0xF)

/-- R65, R66: which operation each opcode selects; the reserved opcodes select none. -/
def Obligations.OpcodeMap : Prop :=
  ∀ p : CmdPacket,
    let op := p.extractLsb' 0 4
    (op = 0x1 → ∃ a b, decodePacket p = .ok (.add a b)) ∧
    (op = 0x2 → ∃ a b, decodePacket p = .ok (.mul a b)) ∧
    (op = 0x3 → ∃ n a r c m, decodePacket p = .ok (.vmul n a r c m)) ∧
    (op = 0x4 → ∃ n a r c m, decodePacket p = .ok (.mvmul n a r c m)) ∧
    (op = 0x8 → ∃ n a, decodePacket p = .ok (.encode n a)) ∧
    (op = 0x9 → ∃ n a, decodePacket p = .ok (.syndrome n a)) ∧
    (op = 0xA → ∃ n a, decodePacket p = .ok (.errvec n a)) ∧
    (op = 0xB → ∃ n a, decodePacket p = .ok (.correct n a)) ∧
    (op = 0xC → ∃ n a, decodePacket p = .ok (.decode n a)) ∧
    (op = 0x0 ∨ op = 0x5 ∨ op = 0x6 ∨ op = 0x7 ∨ op = 0xD ∨ op = 0xE ∨ op = 0xF →
      decodePacket p = .error (.illegalOpcode op))

/-- Decoding the encoding of a well-formed instruction gives it back, for all nine instructions and every value of every
operand. -/
def Obligations.DecodeEncodeRoundTrip : Prop :=
  ∀ i : Instr, i.wf = true → decodePacket (encode i) = .ok i

/-- Every instruction the decoder gives is well-formed, and its encoding differs from the packet only in bits of fields the
operation ignores: every bit of a field that R61 lists for it is kept. -/
def Obligations.DecodedIsWellFormedAndKeepsListedBits : Prop :=
  ∀ (p : CmdPacket) (i : Instr), decodePacket p = .ok i →
    i.wf = true ∧ ∀ k < 152, listedBit p k = true → (encode i).getLsbD k = p.getLsbD k

/-- R56: the fields are a partition of the packet. Cutting a packet into fields and putting them together gives it back, and
so does the other way. -/
def Obligations.FieldsPartitionPacket : Prop :=
  (∀ c : Cmd, unpackCmd (packCmd c) = c) ∧ (∀ p : CmdPacket, packCmd (unpackCmd p) = p)

/-- R42: byte `b` of a packet, command or response, is its bits `[8b+7 : 8b]`, a byte sequence that begins with a command
packet's bytes decodes to that packet's instruction and leaves the rest, and byte 0 holds OP and ALEN. -/
def Obligations.PacketByteOrder : Prop :=
  (∀ (r : RspPacket), (rspBytes r).length = 2 ∧
    ∀ b < 2, ∀ j < 8, ((rspBytes r).getD b 0).getLsbD j = r.getLsbD (8 * b + j)) ∧
  ∀ (p : CmdPacket) (rest : List Byte),
    (packetBytes p).length = 19 ∧
    (∀ b < 19, ∀ j < 8, ((packetBytes p).getD b 0).getLsbD j = p.getLsbD (8 * b + j)) ∧
    (packetBytes p).head? = some ((unpackCmd p).alen ++ (unpackCmd p).op) ∧
    decodeBytes (packetBytes p ++ rest) = (decodePacket p).map fun i => (i, rest)

/-- A step whose next event is a command runs the instruction its packet decodes to, in the state without that event. -/
def Obligations.StepRunsDecodedInstruction : Prop :=
  ∀ (s : State) (p : CmdPacket) (rest : List HostEvent) (i : Instr),
    s.inputs = .command p :: rest → decodePacket p = .ok i → step s = exec i { s with inputs := rest }

/-- `withFetchWord` presents exactly the packet that `decodeTableWord` decodes, as the next event (log 1). -/
def Obligations.FetchWordRunsTableWord : Prop :=
  ∀ (s : State) (nbits w : Nat) (i : Instr), decodeTableWord nbits w = some i →
    step (s.withFetchWord nbits w) = exec i { s with response := none }

/-- R133: every reserved opcode is answered with ILLEGAL_OPCODE, RLEN = 0 and RBITS = 0, and nothing else changes. -/
def Obligations.ReservedOpcodeAnswered : Prop :=
  ∀ (s : State) (p : CmdPacket) (rest : List HostEvent), s.ready →
    p.extractLsb' 0 4 ∈ [0x0#4, 0x5#4, 0x6#4, 0x7#4, 0xD#4, 0xE#4, 0xF#4] →
    step { s with inputs := .command p :: rest } = .next { s with inputs := rest, response := some 0x0004 }

/-- R61: a command's response depends on the fields listed for its operation and on no other bit of the packet. When the
operation needs a length that ALEN does not give, the response is INVALID_INPUT whatever the lanes hold. -/
def Obligations.IgnoredFieldsHaveNoEffect : Prop :=
  (∀ (s : State) (p q : CmdPacket) (rest : List HostEvent),
    (∀ k < 152, listedBit p k = true → p.getLsbD k = q.getLsbD k) →
    step { s with inputs := .command p :: rest } = step { s with inputs := .command q :: rest }) ∧
  (∀ (s : State) (p : CmdPacket) (rest : List HostEvent), s.ready →
    let op := p.extractLsb' 0 4
    let alen := (p.extractLsb' 4 4).toNat
    (op = 0x3 ∧ alen ≠ (p.extractLsb' 80 3).toNat + 1) ∨ (op = 0x4 ∧ alen ≠ (p.extractLsb' 83 3).toNat + 1) ∨
      (op = 0x8 ∧ alen ≠ 2) ∨ ((op = 0x9 ∨ op = 0xA ∨ op = 0xB ∨ op = 0xC) ∧ alen ≠ 5) →
    step { s with inputs := .command p :: rest } = .next { s with inputs := rest, response := some 0x0002 })

/-! ### Arithmetic -/

/-- R81: ADD is OP 0x1 with operands A[0] and B; it answers OK with the XOR of bit 0 of both, always, and changes nothing
else. -/
def Obligations.AddAnswersXor : Prop :=
  (∀ p : CmdPacket, p.extractLsb' 0 4 = 0x1 → decodePacket p = .ok (.add (p.extractLsb' 8 8) (p.extractLsb' 72 8))) ∧
  ∀ (a b : Lane) (s : State), s.ready →
    exec (.add a b) s =
      .next { s with response := some (if a.getLsbD 0 = b.getLsbD 0 then 0x0010 else 0x0110) }

/-- R82: MUL is OP 0x2 with operands A[0] and B; it answers OK with the AND of bit 0 of both, always, and changes nothing
else. -/
def Obligations.MulAnswersAnd : Prop :=
  (∀ p : CmdPacket, p.extractLsb' 0 4 = 0x2 → decodePacket p = .ok (.mul (p.extractLsb' 8 8) (p.extractLsb' 72 8))) ∧
  ∀ (a b : Lane) (s : State), s.ready →
    exec (.mul a b) s =
      .next { s with response := some (if a.getLsbD 0 = true ∧ b.getLsbD 0 = true then 0x0110 else 0x0010) }

/-- R85, from the packet's own bits: VMUL answers OK with `cols` elements, element `j` the GF(2) sum of `v[i]·M[i][j]`, when
ALEN is the row count, and INVALID_INPUT otherwise. Nothing else changes. -/
def Obligations.VmulAnswersProduct : Prop :=
  ∀ (s : State) (p : CmdPacket) (rest : List HostEvent), s.ready → p.extractLsb' 0 4 = 0x3 →
    let rows := (p.extractLsb' 80 3).toNat + 1
    let cols := (p.extractLsb' 83 3).toNat + 1
    ((p.extractLsb' 4 4).toNat = rows → ∃ r : RspPacket,
      step { s with inputs := .command p :: rest } = .next { s with inputs := rest, response := some r } ∧
      rspStatus r = 0 ∧ rspRsv1 r = false ∧ rspLen r = cols ∧
      ∀ j < 8, rspElem r j =
        (decide (j < cols) && xorAll rows fun i => p.getLsbD (8 + 8 * i) && p.getLsbD (88 + 8 * i + j))) ∧
    ((p.extractLsb' 4 4).toNat ≠ rows →
      step { s with inputs := .command p :: rest } = .next { s with inputs := rest, response := some 0x0002 })

/-- R86, from the packet's own bits: MVMUL answers OK with `rows` elements, element `i` the GF(2) sum of `M[i][j]·v[j]`, when
ALEN is the column count, and INVALID_INPUT otherwise. Nothing else changes. -/
def Obligations.MvmulAnswersProduct : Prop :=
  ∀ (s : State) (p : CmdPacket) (rest : List HostEvent), s.ready → p.extractLsb' 0 4 = 0x4 →
    let rows := (p.extractLsb' 80 3).toNat + 1
    let cols := (p.extractLsb' 83 3).toNat + 1
    ((p.extractLsb' 4 4).toNat = cols → ∃ r : RspPacket,
      step { s with inputs := .command p :: rest } = .next { s with inputs := rest, response := some r } ∧
      rspStatus r = 0 ∧ rspRsv1 r = false ∧ rspLen r = rows ∧
      ∀ i < 8, rspElem r i =
        (decide (i < rows) && xorAll cols fun j => p.getLsbD (88 + 8 * i + j) && p.getLsbD (8 + 8 * j))) ∧
    ((p.extractLsb' 4 4).toNat ≠ cols →
      step { s with inputs := .command p :: rest } = .next { s with inputs := rest, response := some 0x0002 })

/-- VMUL and MVMUL complete: for every operand, of conforming length or not, `exec` answers a next state that differs from
the state only in its response, with the result's elements as R83 and R84 give them. -/
def Obligations.MatrixProductsComplete : Prop :=
  ∀ (alen : Nat) (a : Vector Lane 8) (rows cols : Nat) (m : Vector (BitVec 8) 8) (s : State), s.ready →
    1 ≤ rows → rows ≤ 8 → 1 ≤ cols → cols ≤ 8 →
    (∃ r, exec (.vmul alen a rows cols m) s = .next { s with response := some r } ∧
      (alen ≠ rows → r = 0x0002) ∧
      (alen = rows → rspStatus r = 0 ∧ rspLen r = cols ∧
        ∀ j < cols, rspElem r j = xorAll rows fun i => (a.getD i 0).getLsbD 0 && (m.getD i 0).getLsbD j)) ∧
    (∃ r, exec (.mvmul alen a rows cols m) s = .next { s with response := some r } ∧
      (alen ≠ cols → r = 0x0002) ∧
      (alen = cols → rspStatus r = 0 ∧ rspLen r = rows ∧
        ∀ i < rows, rspElem r i = xorAll cols fun j => (m.getD i 0).getLsbD j && (a.getD j 0).getLsbD 0))

/-- R87 (which the spec marks as general knowledge, and the linearity as derived): the laws of GF(2) for the block's scalar addition and multiplication, and linearity of both vector functions. -/
def Obligations.GF2Laws : Prop :=
  (∀ a b c : Bool,
    gfAdd a b = gfAdd b a ∧ gfMul a b = gfMul b a ∧ gfAdd (gfAdd a b) c = gfAdd a (gfAdd b c) ∧
    gfMul a (gfAdd b c) = gfAdd (gfMul a b) (gfMul a c) ∧
    gfAdd a false = a ∧ gfAdd a a = false ∧ gfMul a true = a ∧ gfMul a false = false) ∧
  (∀ (r c : Nat) (m : BitMatrix r c) (u w : BitVec r), vxm (u ^^^ w) m = vxm u m ^^^ vxm w m) ∧
  (∀ (r c : Nat) (m : BitMatrix r c) (u w : BitVec c), mxv m (u ^^^ w) = mxv m u ^^^ mxv m w)

/-- The coder composed from the arithmetic module (95_test_vectors.md P4): VMUL with G and MVMUL with H in the command give
the responses of ENCODE and SYNDROME, for every message and every received word. -/
def Obligations.ArithmeticComposesCoder : Prop :=
  ∀ s : State, s.Inv →
    (∀ m : BitVec 2,
      exec (.vmul 2 (padLanes (lanesOf m)) 2 5 #v[0x1D, 0x1A, 0, 0, 0, 0, 0, 0]) s = exec (.encode 2 (lanesOf m)) s) ∧
    (∀ r : BitVec 5,
      exec (.mvmul 5 (padLanes (lanesOf r)) 3 5 #v[0x05, 0x0B, 0x13, 0, 0, 0, 0, 0]) s =
        exec (.syndrome 5 (lanesOf r)) s)

/-! ### The coder -/

/-- R102: ENCODE is OP 0x8 with operand [A[0], A[1]]; it answers the codeword of the message, and INVALID_INPUT for a wrong
length or a non-binary element. Nothing else changes. -/
def Obligations.EncodeAnswersCodeword : Prop :=
  (∀ p : CmdPacket, p.extractLsb' 0 4 = 0x8 →
    decodePacket p = .ok (.encode (p.extractLsb' 4 4).toNat #v[p.extractLsb' 8 8, p.extractLsb' 16 8])) ∧
  ∀ (alen : Nat) (m : Vector Lane 2) (s : State), s.Inv → s.ready →
    (alen = 2 → m[0] = 0 → m[1] = 0 → exec (.encode alen m) s = .next { s with response := some 0x0050 }) ∧
    (alen = 2 → m[0] = 1 → m[1] = 0 → exec (.encode alen m) s = .next { s with response := some 0x1D50 }) ∧
    (alen = 2 → m[0] = 0 → m[1] = 1 → exec (.encode alen m) s = .next { s with response := some 0x1A50 }) ∧
    (alen = 2 → m[0] = 1 → m[1] = 1 → exec (.encode alen m) s = .next { s with response := some 0x0750 }) ∧
    (¬ (alen = 2 ∧ binary m) → exec (.encode alen m) s = .next { s with response := some 0x0002 })

/-- R103: SYNDROME is OP 0x9 with operand A[0..4]; it answers `s[0] = r[0] ⊕ r[2]`, `s[1] = r[0] ⊕ r[1] ⊕ r[3]`,
`s[2] = r[0] ⊕ r[1] ⊕ r[4]`, and INVALID_INPUT for a wrong length or a non-binary element. Nothing else changes. -/
def Obligations.SyndromeAnswersParities : Prop :=
  (∀ p : CmdPacket, p.extractLsb' 0 4 = 0x9 →
    decodePacket p = .ok (.syndrome (p.extractLsb' 4 4).toNat
      #v[p.extractLsb' 8 8, p.extractLsb' 16 8, p.extractLsb' 24 8, p.extractLsb' 32 8, p.extractLsb' 40 8])) ∧
  ∀ (alen : Nat) (r : Vector Lane 5) (s : State), s.Inv → s.ready →
    (alen = 5 → binary r → ∃ p, exec (.syndrome alen r) s = .next { s with response := some p } ∧
      rspStatus p = 0 ∧ rspRsv1 p = false ∧ rspLen p = 3 ∧
      (rspElem p 0 = decide (r[0] ^^^ r[2] = 1)) ∧
      (rspElem p 1 = decide (r[0] ^^^ r[1] ^^^ r[3] = 1)) ∧
      (rspElem p 2 = decide (r[0] ^^^ r[1] ^^^ r[4] = 1)) ∧
      (∀ j < 8, 3 ≤ j → rspElem p j = false)) ∧
    (¬ (alen = 5 ∧ binary r) → exec (.syndrome alen r) s = .next { s with response := some 0x0002 })

/-- R104: ERRVEC is OP 0xA with operand A[0..4]; it answers the error vector of the received word's syndrome, ABSENT for the two unmapped syndromes, and
INVALID_INPUT for a wrong length or a non-binary element. The received word `x` is given by its lanes; its error vector is
the `e` of weight at most 1 for which `x ⊕ e` is a codeword. Nothing else changes. -/
def Obligations.ErrvecAnswersErrorVector : Prop :=
  (∀ p : CmdPacket, p.extractLsb' 0 4 = 0xA →
    decodePacket p = .ok (.errvec (p.extractLsb' 4 4).toNat
      #v[p.extractLsb' 8 8, p.extractLsb' 16 8, p.extractLsb' 24 8, p.extractLsb' 32 8, p.extractLsb' 40 8])) ∧
  ∀ (alen : Nat) (r : Vector Lane 5) (s : State), s.Inv → s.ready →
    (∀ x e : BitVec 5, alen = 5 → r = lanesOf x → weight e ≤ 1 → x ^^^ e ∈ codewords →
      exec (.errvec alen r) s = .next { s with response := some (okPacket e) }) ∧
    (∀ x : BitVec 5, alen = 5 → r = lanesOf x → (mxv Config.hMatrix x = 0b101 ∨ mxv Config.hMatrix x = 0b011) →
      exec (.errvec alen r) s = .next { s with response := some 0x0001 }) ∧
    (¬ (alen = 5 ∧ binary r) → exec (.errvec alen r) s = .next { s with response := some 0x0002 })

/-- R105: CORRECT is OP 0xB with operand A[0..4]; it answers the received word with its error vector added, UNCORRECTABLE for the two unmapped syndromes, and
INVALID_INPUT for a wrong length or a non-binary element. Nothing else changes. -/
def Obligations.CorrectAnswersCodeword : Prop :=
  (∀ p : CmdPacket, p.extractLsb' 0 4 = 0xB →
    decodePacket p = .ok (.correct (p.extractLsb' 4 4).toNat
      #v[p.extractLsb' 8 8, p.extractLsb' 16 8, p.extractLsb' 24 8, p.extractLsb' 32 8, p.extractLsb' 40 8])) ∧
  ∀ (alen : Nat) (r : Vector Lane 5) (s : State), s.Inv → s.ready →
    (∀ x e : BitVec 5, alen = 5 → r = lanesOf x → weight e ≤ 1 → x ^^^ e ∈ codewords →
      exec (.correct alen r) s = .next { s with response := some (okPacket (x ^^^ e)) }) ∧
    (∀ x : BitVec 5, alen = 5 → r = lanesOf x → (mxv Config.hMatrix x = 0b101 ∨ mxv Config.hMatrix x = 0b011) →
      exec (.correct alen r) s = .next { s with response := some 0x0003 }) ∧
    (¬ (alen = 5 ∧ binary r) → exec (.correct alen r) s = .next { s with response := some 0x0002 })

/-- R106: DECODE is OP 0xC with operand A[0..4]; it answers the first two elements, of any binary word, in every state, and INVALID_INPUT for a wrong length or
a non-binary element, also one that is not returned. Nothing else changes. -/
def Obligations.DecodeAnswersPrefix : Prop :=
  (∀ p : CmdPacket, p.extractLsb' 0 4 = 0xC →
    decodePacket p = .ok (.decode (p.extractLsb' 4 4).toNat
      #v[p.extractLsb' 8 8, p.extractLsb' 16 8, p.extractLsb' 24 8, p.extractLsb' 32 8, p.extractLsb' 40 8])) ∧
  ∀ (alen : Nat) (w : Vector Lane 5) (s : State), s.ready →
    (alen = 5 → binary w → w[0] = 0 → w[1] = 0 → exec (.decode alen w) s = .next { s with response := some 0x0020 }) ∧
    (alen = 5 → binary w → w[0] = 1 → w[1] = 0 → exec (.decode alen w) s = .next { s with response := some 0x0120 }) ∧
    (alen = 5 → binary w → w[0] = 0 → w[1] = 1 → exec (.decode alen w) s = .next { s with response := some 0x0220 }) ∧
    (alen = 5 → binary w → w[0] = 1 → w[1] = 1 → exec (.decode alen w) s = .next { s with response := some 0x0320 }) ∧
    (¬ (alen = 5 ∧ binary w) → exec (.decode alen w) s = .next { s with response := some 0x0002 })

/-- R26 (which the spec derives from R22 and R23): the codewords are the row space of G and the null space of H, their minimum non-zero weight is 3, and two words have
the same syndrome exactly when they differ by a codeword. -/
def Obligations.CodeIsRowSpaceAndNullSpace : Prop :=
  (∀ c : BitVec 5, c ∈ codewords ↔ ∃ m : BitVec 2, vxm m Config.gMatrix = c) ∧
  (∀ r : BitVec 5, r ∈ codewords ↔ mxv Config.hMatrix r = 0) ∧
  (∀ c ∈ codewords, c ≠ 0 → 3 ≤ weight c) ∧ (∃ c ∈ codewords, weight c = 3) ∧
  (∀ u w : BitVec 5, mxv Config.hMatrix u = mxv Config.hMatrix w ↔ u ^^^ w ∈ codewords) ∧
  (∀ u w : BitVec 5, weight u ≤ 1 → weight w ≤ 1 → mxv Config.hMatrix u = mxv Config.hMatrix w → u = w)

/-- R107 (which the spec derives from R102–R106): for every message, ENCODE answers a codeword whose DECODE answers the message, whose SYNDROME is zero and which
CORRECT returns unchanged, and CORRECT undoes an error at any one position, after which DECODE answers the message. ENCODE
and SYNDROME reject length 3 and an element 2. -/
def Obligations.SingleErrorsAreCorrected : Prop :=
  ∀ s : State, s.Inv → s.ready →
    (∀ m : BitVec 2, ∃ c : BitVec 5,
      exec (.encode 2 (lanesOf m)) s = .next { s with response := some (okPacket c) } ∧
      exec (.decode 5 (lanesOf c)) s = .next { s with response := some (okPacket m) } ∧
      exec (.syndrome 5 (lanesOf c)) s = .next { s with response := some (okPacket 0#3) } ∧
      exec (.correct 5 (lanesOf c)) s = .next { s with response := some (okPacket c) } ∧
      ∀ p < 5, exec (.correct 5 (lanesOf (c ^^^ BitVec.twoPow 5 p))) s = .next { s with response := some (okPacket c) }) ∧
    (∀ m : Vector Lane 2, exec (.encode 3 m) s = .next { s with response := some 0x0002 }) ∧
    (∀ r : Vector Lane 5, exec (.syndrome 3 r) s = .next { s with response := some 0x0002 }) ∧
    (∀ m : Vector Lane 2, (∃ i : Fin 2, m[i] = 2) → exec (.encode 2 m) s = .next { s with response := some 0x0002 }) ∧
    (∀ r : Vector Lane 5, (∃ i : Fin 5, r[i] = 2) → exec (.syndrome 5 r) s = .next { s with response := some 0x0002 })

/-- The table of R108 (the spec marks it derived): for every codeword and every pair of flipped positions, the syndrome that
SYNDROME answers; four pairs are reported and six are corrected to a wrong codeword with STATUS OK, at distance 3 from the one
sent. -/
def Obligations.DoubleErrors : Prop :=
  ∀ (s : State) (c : BitVec 5), s.Inv → s.ready → c ∈ codewords →
    (∀ q ∈ [(0, 3, 0b101#3), (0, 4, 0b011#3), (2, 3, 0b011#3), (2, 4, 0b101#3)],
      let r := c ^^^ BitVec.twoPow 5 q.1 ^^^ BitVec.twoPow 5 q.2.1
      exec (.syndrome 5 (lanesOf r)) s = .next { s with response := some (okPacket q.2.2) } ∧
      exec (.errvec 5 (lanesOf r)) s = .next { s with response := some 0x0001 } ∧
      exec (.correct 5 (lanesOf r)) s = .next { s with response := some 0x0003 }) ∧
    (∀ q ∈ [(0, 1, 0b001#3, 2), (0, 2, 0b110#3, 1), (1, 2, 0b111#3, 0), (1, 3, 0b100#3, 4), (1, 4, 0b010#3, 3),
        (3, 4, 0b110#3, 1)],
      let r := c ^^^ BitVec.twoPow 5 q.1 ^^^ BitVec.twoPow 5 q.2.1
      let wrong := r ^^^ BitVec.twoPow 5 q.2.2.2
      exec (.syndrome 5 (lanesOf r)) s = .next { s with response := some (okPacket q.2.2.1) } ∧
      exec (.errvec 5 (lanesOf r)) s = .next { s with response := some (okPacket (BitVec.twoPow 5 q.2.2.2)) } ∧
      exec (.correct 5 (lanesOf r)) s = .next { s with response := some (okPacket wrong) } ∧
      wrong ∈ codewords ∧ distance wrong c = 3)

/-- CORRECT is nearest-codeword decoding under the single-error assumption: it answers OK exactly when a codeword lies within
distance 1, and then with that codeword, which is the only one; otherwise it answers UNCORRECTABLE. -/
def Obligations.CorrectFindsNearestCodeword : Prop :=
  ∀ (s : State) (x : BitVec 5), s.Inv → s.ready →
    (∀ c ∈ codewords, distance x c ≤ 1 →
      exec (.correct 5 (lanesOf x)) s = .next { s with response := some (okPacket c) } ∧
      ∀ d ∈ codewords, distance x d ≤ 1 → d = c) ∧
    ((∀ c ∈ codewords, 2 ≤ distance x c) →
      exec (.correct 5 (lanesOf x)) s = .next { s with response := some 0x0003 })

/-- R109 (which the spec derives from R23, R26 and R150): with any 3×5 matrix whose null space is the code in `H_ROM`, and the table that reset builds from it, ENCODE,
ERRVEC, CORRECT and DECODE give the response they give with H, and SYNDROME's response differs in its three result bits at
most. -/
def Obligations.ResponsesDoNotDependOnChoiceOfH : Prop :=
  ∀ (s : State) (h : BitMatrix 3 5), s.Inv → s.ready → (∀ r : BitVec 5, mxv h r = 0 ↔ r ∈ codewords) →
    let s' := resetBlock { s with hRom := h }
    (∀ i : Instr, (∀ alen r, i ≠ .syndrome alen r) → ∀ p, exec i s = .next { s with response := some p } →
      exec i s' = .next { s' with response := some p }) ∧
    (∀ alen r p, exec (.syndrome alen r) s = .next { s with response := some p } →
      ∃ p', exec (.syndrome alen r) s' = .next { s' with response := some p' } ∧
        ∀ k < 16, k < 8 ∨ 11 ≤ k → p'.getLsbD k = p.getLsbD k)

/-- A host that keeps duty 3 (R142, D6; log 17): an element that is neither 0 nor 1, presented through any mapping the duty
allows, makes every coder command that examines its lane answer INVALID_INPUT, in every ready state. -/
def Obligations.MappedNonBinaryElementRejected : Prop :=
  ∀ (f : Int → Lane) (s : State) (alen : Nat), LaneDuty f → s.ready →
    (∀ m : Vector Int 2, (∃ i : Fin 2, m[i] ≠ 0 ∧ m[i] ≠ 1) →
      exec (.encode alen (m.map f)) s = .next { s with response := some 0x0002 }) ∧
    (∀ r : Vector Int 5, (∃ i : Fin 5, r[i] ≠ 0 ∧ r[i] ≠ 1) →
      exec (.syndrome alen (r.map f)) s = .next { s with response := some 0x0002 } ∧
      exec (.errvec alen (r.map f)) s = .next { s with response := some 0x0002 } ∧
      exec (.correct alen (r.map f)) s = .next { s with response := some 0x0002 } ∧
      exec (.decode alen (r.map f)) s = .next { s with response := some 0x0002 })

/-! ### Errors and whole-machine rules -/

/-- R131: which commands answer INVALID_INPUT, in every ready state, whatever the tables hold; the response then carries
nothing else. -/
def Obligations.InvalidInputCauses : Prop :=
  ∀ (i : Instr) (s : State) (p : RspPacket), exec i s = .next { s with response := some p } →
    (rspStatus p = 2 ↔ p = 0x0002) ∧
    (p = 0x0002 ↔ invalidInputCause i)

/-- R132, R134: only CORRECT answers UNCORRECTABLE and only ERRVEC answers ABSENT, exactly when the operand is valid and the
table's entry at its syndrome is unmapped; in a run that is the syndrome [1,0,1] or [1,1,0], which no codeword has. The
response carries nothing else. -/
def Obligations.UnmappedSyndromeStatus : Prop :=
  ∀ (i : Instr) (s : State) (p : RspPacket), s.Inv → exec i s = .next { s with response := some p } →
    (rspStatus p = 3 ↔ p = 0x0003) ∧ (rspStatus p = 1 ↔ p = 0x0001) ∧
    (p = 0x0003 ↔ ∃ x : BitVec 5, i = .correct 5 (lanesOf x) ∧
      (mxv Config.hMatrix x = 0b101 ∨ mxv Config.hMatrix x = 0b011)) ∧
    (p = 0x0001 ↔ ∃ x : BitVec 5, i = .errvec 5 (lanesOf x) ∧
      (mxv Config.hMatrix x = 0b101 ∨ mxv Config.hMatrix x = 0b011)) ∧
    (∀ c ∈ codewords, mxv Config.hMatrix c ≠ 0b101 ∧ mxv Config.hMatrix c ≠ 0b011)

/-- R136: the STATUS of the response to any packet is the first condition that holds in the order illegal opcode, wrong
length, non-binary element, unmapped syndrome, OK. -/
def Obligations.StatusPriority : Prop :=
  ∀ (s : State) (p : CmdPacket) (rest : List HostEvent), s.Inv → s.ready →
    ∃ r, step { s with inputs := .command p :: rest } = .next { s with inputs := rest, response := some r } ∧
      rspStatus r = priorityStatus p

/-- R63: every command packet is answered, in one step and in every ready state, with one legal response: `RSV1` = 0, no bit
at an index `≥ RLEN`, and no result unless STATUS is OK. Nothing else changes. -/
def Obligations.EveryCommandAnsweredLegally : Prop :=
  ∀ (s : State) (p : CmdPacket) (rest : List HostEvent), s.ready →
    ∃ r, step { s with inputs := .command p :: rest } = .next { s with inputs := rest, response := some r } ∧
      legalResponse r ∧ (rspStatus r ≠ 0 → ∀ j < 8, rspElem r j = false)

/-- No command writes a table or `BUILT`, in any state (R32, R80, R110), and over all the events of a run nothing changes
`G_ROM` or `H_ROM` (R32, R151) and only reset and a loss of power change `SYN_ROM` or `BUILT`. R32 names reset alone; that a
loss of power leaves `SYN_ROM` a free value and returns `BUILT` to 0 is the model's choice (log 6, after R147 and I5). -/
def Obligations.OnlyResetOrPowerLossChangesTables : Prop :=
  (∀ (i : Instr) (s t : State), exec i s = .next t → ∃ p, t = { s with response := some p }) ∧
  (∀ s t : State, step s = .next t → t.gRom = s.gRom ∧ t.hRom = s.hRom ∧
    (t.synRom ≠ s.synRom ∨ t.built ≠ s.built → ∃ rest, s.inputs = .reset :: rest ∨ s.inputs = .powerLoss :: rest))

/-- R48 (whose second half the spec derives from R47 and R32): a response is a function of the packet and the tables alone: two ready states with equal tables give equal responses
to a packet, whatever else differs. So the order of a set of commands changes no response. -/
def Obligations.ResponseDependsOnPacketAndTables : Prop :=
  (∀ (s t : State) (p : CmdPacket) (rest rest' : List HostEvent), s.ready → t.ready →
    s.gRom = t.gRom → s.hRom = t.hRom → s.synRom = t.synRom → ∃ r,
      step { s with inputs := .command p :: rest } = .next { s with inputs := rest, response := some r } ∧
      step { t with inputs := .command p :: rest' } = .next { t with inputs := rest', response := some r }) ∧
  (∀ (s : State) (ps qs : List CmdPacket), s.ready → ps.Perm qs → ∃ rs us : List RspPacket,
    core.run (2 * ps.length) { s with inputs := script ps } = .next { s with inputs := [], received := s.received ++ rs } ∧
    core.run (2 * qs.length) { s with inputs := script qs } = .next { s with inputs := [], received := s.received ++ us } ∧
    rs.length = ps.length ∧ us.length = qs.length ∧ (ps.zip rs).Perm (qs.zip us))

/-- From every state of the invariant, with any list of events that is `dutiful`, the whole run completes without a stop, and
every command is answered with exactly the response it would get alone right after reset, in order. So no error is sticky
(R140), there is no hazard (R156), and resets and losses of power between commands change no response (R153, R147). Three
things are the model's and no rule of the spec: a reset while a response is outstanding leaves it for the host to receive
(log 5); a loss of power while a response is outstanding is left out by the premise, though R142 lists no such duty, because
whether the response survives is a free value (log 7); and a loss of power returns `BUILT` to 0 (log 6). -/
def Obligations.DutifulRunAnswersEveryCommand : Prop :=
  ∀ s : State, s.Inv → dutiful s.built s.response.isSome s.inputs = true →
    ∃ t : State, core.run s.inputs.length s = .next t ∧ t.inputs = [] ∧ t.Inv ∧
      (t.received ++ t.response.toList).map some =
        (s.received ++ s.response.toList).map some ++ (commandsOf s.inputs).map soloResponse
end

