-- ==== Sys2Proof/Laws/Decode.lean ====
section
/-! SUPPORT. The bits of a packed packet and of a packet put together from bytes. -/

namespace Sys2Proof

@[simp] theorem place_bit {w : Nat} (pos : Nat) (f : BitVec w) (k : Nat) :
    (place pos f).getLsbD k = (decide (k < 152) && decide (pos ≤ k) && f.getLsbD (k - pos)) := by
  by_cases h : k < 152 <;> by_cases h' : k < pos
  · simp [place, h, h', show ¬ pos ≤ k by omega]
  · simp [place, h, h', show pos ≤ k by omega]
  · simp [place, h]
  · simp [place, h]

/-- Bit `k` of bytes placed at `pos`: bit `(k - pos) % 8` of byte `(k - pos) / 8`. -/
@[simp] theorem placeAll_bit (xs : List Byte) (pos k : Nat) :
    (placeAll pos xs).getLsbD k =
      (decide (k < 152) && decide (pos ≤ k) && (xs.getD ((k - pos) / 8) 0).getLsbD ((k - pos) % 8)) := by
  induction xs generalizing pos with
  | nil => simp [placeAll]
  | cons x xs ih =>
    simp only [placeAll, BitVec.getLsbD_or, place_bit, ih]
    by_cases h : k < 152
    · by_cases h1 : pos ≤ k
      · by_cases h2 : pos + 8 ≤ k
        · have hd : (k - pos) / 8 = (k - (pos + 8)) / 8 + 1 := by omega
          have hm : (k - pos) % 8 = (k - (pos + 8)) % 8 := by omega
          simp [h, h1, h2, hd, hm, BitVec.getLsbD_of_ge x (k - pos) (by omega)]
        · have hd : (k - pos) / 8 = 0 := by omega
          have hm : (k - pos) % 8 = k - pos := by omega
          simp [h, h1, h2, hd, hm]
      · simp [h1, show ¬ pos + 8 ≤ k by omega]
    · simp [h]

/-- Bit `k` of the packet with the given fields, by the table of R56. -/
def cmdBit (c : Cmd) (k : Nat) : Bool :=
  if k < 4 then c.op.getLsbD k
  else if k < 8 then c.alen.getLsbD (k - 4)
  else if k < 72 then (c.a.toList.getD ((k - 8) / 8) 0).getLsbD ((k - 8) % 8)
  else if k < 80 then c.b.getLsbD (k - 72)
  else if k < 83 then c.mr1.getLsbD (k - 80)
  else if k < 86 then c.mc1.getLsbD (k - 83)
  else if k < 88 then c.rsv0.getLsbD (k - 86)
  else (c.mrow.toList.getD ((k - 88) / 8) 0).getLsbD ((k - 88) % 8)

theorem getD_toList_of_ge {n : Nat} (v : Vector Byte n) {k : Nat} (h : n ≤ k) : v.toList.getD k 0 = 0 := by
  simp [List.getD_eq_getElem?_getD, h]

theorem packCmd_bit (c : Cmd) {k : Nat} (h : k < 152) : (packCmd c).getLsbD k = cmdBit c k := by
  simp only [packCmd, BitVec.getLsbD_or, place_bit, placeAll_bit, h, decide_true, Bool.true_and, cmdBit]
  have hop (h : 4 ≤ k) : c.op.getLsbD k = false := BitVec.getLsbD_of_ge c.op k h
  by_cases h0 : k < 4
  · simp [h0, show ¬ 4 ≤ k by omega, show ¬ 8 ≤ k by omega, show ¬ 72 ≤ k by omega, show ¬ 80 ≤ k by omega,
      show ¬ 83 ≤ k by omega, show ¬ 86 ≤ k by omega, show ¬ 88 ≤ k by omega]
  rw [if_neg h0]
  by_cases h1 : k < 8
  · simp [h1, show 4 ≤ k by omega, show ¬ 8 ≤ k by omega, show ¬ 72 ≤ k by omega, show ¬ 80 ≤ k by omega,
      show ¬ 83 ≤ k by omega, show ¬ 86 ≤ k by omega, show ¬ 88 ≤ k by omega]
  rw [if_neg h1]
  by_cases h2 : k < 72
  · simp [h2, show 4 ≤ k by omega, show 8 ≤ k by omega, show ¬ 72 ≤ k by omega, show ¬ 80 ≤ k by omega,
      show ¬ 83 ≤ k by omega, show ¬ 86 ≤ k by omega, show ¬ 88 ≤ k by omega, BitVec.getLsbD_of_ge c.alen (k - 4) (by omega)]
  rw [if_neg h2, getD_toList_of_ge c.a (show 8 ≤ (k - 8) / 8 by omega)]
  by_cases h3 : k < 80
  · simp [h3, show 72 ≤ k by omega, show ¬ 80 ≤ k by omega, show ¬ 83 ≤ k by omega, show ¬ 86 ≤ k by omega, show ¬ 88 ≤ k by omega,
      BitVec.getLsbD_of_ge c.alen (k - 4) (by omega), hop (by omega)]
  rw [if_neg h3]
  by_cases h4 : k < 83
  · simp [h4, show 80 ≤ k by omega, show ¬ 83 ≤ k by omega, show ¬ 86 ≤ k by omega, show ¬ 88 ≤ k by omega,
      BitVec.getLsbD_of_ge c.alen (k - 4) (by omega), BitVec.getLsbD_of_ge c.b (k - 72) (by omega), hop (by omega)]
  rw [if_neg h4]
  by_cases h5 : k < 86
  · simp [h5, show 83 ≤ k by omega, show ¬ 86 ≤ k by omega, show ¬ 88 ≤ k by omega,
      BitVec.getLsbD_of_ge c.alen (k - 4) (by omega), BitVec.getLsbD_of_ge c.b (k - 72) (by omega),
      BitVec.getLsbD_of_ge c.mr1 (k - 80) (by omega), hop (by omega)]
  rw [if_neg h5]
  by_cases h6 : k < 88
  · simp [h6, show 86 ≤ k by omega, show ¬ 88 ≤ k by omega,
      BitVec.getLsbD_of_ge c.alen (k - 4) (by omega), BitVec.getLsbD_of_ge c.b (k - 72) (by omega),
      BitVec.getLsbD_of_ge c.mr1 (k - 80) (by omega), BitVec.getLsbD_of_ge c.mc1 (k - 83) (by omega), hop (by omega)]
  simp [h6, show 88 ≤ k by omega,
    BitVec.getLsbD_of_ge c.alen (k - 4) (by omega), BitVec.getLsbD_of_ge c.b (k - 72) (by omega),
    BitVec.getLsbD_of_ge c.mr1 (k - 80) (by omega), BitVec.getLsbD_of_ge c.mc1 (k - 83) (by omega),
    BitVec.getLsbD_of_ge c.rsv0 (k - 86) (by omega), hop (by omega)]

/-- The operation of a packed packet. -/
theorem packCmd_op (c : Cmd) : (packCmd c).extractLsb' 0 4 = c.op := by
  ext i hi
  simp only [BitVec.getElem_extractLsb', Nat.zero_add]
  rw [packCmd_bit c (by omega)]
  simp [cmdBit, hi]

theorem bytesPacket_bit (bs : List Byte) {k : Nat} (h : k < 152) :
    (bytesPacket bs).getLsbD k = (bs.getD (k / 8) 0).getLsbD (k % 8) := by
  simp only [bytesPacket, placeAll_bit, h, decide_true, Nat.zero_le, Nat.sub_zero, Bool.true_and]

theorem length_packetBytes (p : CmdPacket) : (packetBytes p).length = Config.cmdBytes := by
  simp [packetBytes]

/-- Lane `i` of a packet (R57). -/
theorem unpackCmd_lane (p : CmdPacket) {i : Nat} (h : i < 8) : (unpackCmd p).a.getD i 0 = p.extractLsb' (8 + 8 * i) 8 := by
  simp [unpackCmd, Vector.getD, h]

/-- Matrix row `i` of a packet (R60). -/
theorem unpackCmd_row (p : CmdPacket) {i : Nat} (h : i < 8) :
    (unpackCmd p).mrow.getD i 0 = p.extractLsb' (88 + 8 * i) 8 := by
  simp [unpackCmd, Vector.getD, h]

/-- Byte `b` of a packet (R42). -/
theorem getD_packetBytes (p : CmdPacket) {b : Nat} (h : b < 19) : (packetBytes p).getD b 0 = p.extractLsb' (8 * b) 8 := by
  simp [packetBytes, h]

/-- A packet that gives no instruction selects a reserved opcode: `truncated` is said of byte sequences only. -/
theorem decodePacket_error {p : CmdPacket} {e : DecodeError} (h : decodePacket p = .error e) :
    e = .illegalOpcode (p.extractLsb' 0 4) := by
  unfold decodePacket decodeCmd at h
  split at h <;> simp_all [unpackCmd]

end Sys2Proof
end

