-- ==== Sys2Proof/Laws/Gf2.lean ====
section
/-! SUPPORT. The bits of the GF(2) functions and of the operands: one lemma per function. -/

namespace Sys2Proof.Machine

theorem getD_of_lt {α : Type} {n i : Nat} (v : Vector α n) (d : α) (h : i < n) : v.getD i d = v[i] := by
  simp [Vector.getD, h]

/-! ### Sums and products -/

theorem xorAll_succ (n : Nat) (f : Nat → Bool) : xorAll (n + 1) f = (xorAll n f ^^ f n) := by
  simp [xorAll, List.range_succ]

/-- The recursive GF(2) sum is the fold of R12. -/
theorem gfSum_eq_xorAll (n : Nat) (f : Nat → Bool) : gfSum n f = xorAll n f := by
  induction n with
  | zero => rfl
  | succ n ih => rw [xorAll_succ, ← ih]; rfl

theorem xorAll_congr {n : Nat} {f g : Nat → Bool} (h : ∀ i < n, f i = g i) : xorAll n f = xorAll n g := by
  induction n with
  | zero => rfl
  | succ n ih => rw [xorAll_succ, xorAll_succ, ih fun i hi => h i (by omega), h n (by omega)]

/-- Element `j` of a vector times a matrix (R83). -/
theorem vxm_bit {r c j : Nat} (v : BitVec r) (m : BitMatrix r c) (h : j < c) :
    (vxm v m).getLsbD j = xorAll r fun i => v.getLsbD i && cell m i j := by
  rw [vxm, BitVec.getLsbD_ofFnLE, dif_pos h, gfSum_eq_xorAll]
  rfl

/-- Element `i` of a matrix times a vector (R84). -/
theorem mxv_bit {r c i : Nat} (m : BitMatrix r c) (v : BitVec c) (h : i < r) :
    (mxv m v).getLsbD i = xorAll c fun j => cell m i j && v.getLsbD j := by
  rw [mxv, BitVec.getLsbD_ofFnLE, dif_pos h, gfSum_eq_xorAll]
  rfl

/-- No two syndromes share a key (R25). -/
theorem key_injective : ∀ s t : BitVec 3, key s = key t → s = t := by decide +kernel

/-! ### Operands -/

/-- The cells of a command's matrix (R60). -/
theorem cell_commandMatrix {rows cols i j : Nat} (m : Vector (BitVec 8) 8) (hi : i < rows) (hj : j < cols) :
    cell (commandMatrix rows cols m) i j = (m.getD i 0).getLsbD j := by
  unfold cell commandMatrix
  rw [getD_of_lt _ _ hi]
  simp [hj]

/-- The elements of an arithmetic vector (R69). -/
theorem arithVector_bit {n i : Nat} (a : Vector Lane 8) (h : i < n) :
    (arithVector n a).getLsbD i = (a.getD i 0).getLsbD 0 := by
  rw [arithVector, BitVec.getLsbD_ofFnLE, dif_pos h]
  rfl

/-- The elements of a coder vector (R68). -/
theorem coderVector_bit {n i : Nat} (a : Vector Lane n) (h : i < n) : (coderVector a).getLsbD i = bit0 a[i] := by
  rw [coderVector, BitVec.getLsbD_ofFnLE, dif_pos h]
  rfl

/-- What validation says (R100). -/
theorem validBits_iff {n alen : Nat} (a : Vector Lane n) : validBits alen a = true ↔ alen = n ∧ binary a := by
  simp only [validBits, Bool.and_eq_true, beq_iff_eq, List.all_eq_true, isBit, Bool.or_eq_true, binary]
  refine and_congr_right fun _ => ⟨fun h i => h _ (by simp), fun h x hx => ?_⟩
  obtain ⟨i, hi, rfl⟩ := List.mem_iff_getElem.1 hx
  simpa using h ⟨i, by simpa using hi⟩

theorem binary_lanesOf {n : Nat} (x : BitVec n) : binary (lanesOf x) := by
  intro i
  by_cases h : x[i.val] <;> simp [lanesOf, h]

/-- The lanes that present a Bit vector are read back as it. -/
theorem coderVector_lanesOf {n : Nat} (x : BitVec n) : coderVector (lanesOf x) = x := by
  ext i hi
  rw [← BitVec.getLsbD_eq_getElem, coderVector_bit _ hi]
  by_cases h : x[i] <;> simp [lanesOf, bit0, h]

end Sys2Proof.Machine
end

