-- ==== Sys2Proof/Laws/State.lean ====
section
/-! SUPPORT. Every field after every named update of the state, so that no later proof unfolds one. -/

namespace Sys2Proof.Machine

variable (s : State) (n w : Nat)

@[simp] theorem resetBlock_gRom : (resetBlock s).gRom = s.gRom := rfl
@[simp] theorem resetBlock_hRom : (resetBlock s).hRom = s.hRom := rfl
@[simp] theorem resetBlock_synRom : (resetBlock s).synRom = buildSynRom s.hRom := rfl
@[simp] theorem resetBlock_built : (resetBlock s).built = true := rfl
@[simp] theorem resetBlock_inputs : (resetBlock s).inputs = s.inputs := rfl
@[simp] theorem resetBlock_response : (resetBlock s).response = s.response := rfl
@[simp] theorem resetBlock_received : (resetBlock s).received = s.received := rfl
@[simp] theorem resetBlock_freeCount : (resetBlock s).freeCount = s.freeCount := rfl

@[simp] theorem powerLoss_gRom : (powerLoss s).gRom = s.gRom := rfl
@[simp] theorem powerLoss_hRom : (powerLoss s).hRom = s.hRom := rfl
@[simp] theorem powerLoss_synRom : (powerLoss s).synRom = Config.freeSynRom s.freeCount := rfl
@[simp] theorem powerLoss_built : (powerLoss s).built = false := rfl
@[simp] theorem powerLoss_inputs : (powerLoss s).inputs = s.inputs := rfl
@[simp] theorem powerLoss_response :
    (powerLoss s).response = if Config.freeResponseKept s.freeCount then s.response else none := rfl
@[simp] theorem powerLoss_received : (powerLoss s).received = s.received := rfl
@[simp] theorem powerLoss_freeCount : (powerLoss s).freeCount = s.freeCount + 1 := rfl

@[simp] theorem withFetchWord_gRom : (s.withFetchWord n w).gRom = s.gRom := rfl
@[simp] theorem withFetchWord_hRom : (s.withFetchWord n w).hRom = s.hRom := rfl
@[simp] theorem withFetchWord_synRom : (s.withFetchWord n w).synRom = s.synRom := rfl
@[simp] theorem withFetchWord_built : (s.withFetchWord n w).built = s.built := rfl
@[simp] theorem withFetchWord_inputs :
    (s.withFetchWord n w).inputs = .command (BitVec.ofNat 152 (w % 2 ^ n)) :: s.inputs := rfl
@[simp] theorem withFetchWord_response : (s.withFetchWord n w).response = none := rfl
@[simp] theorem withFetchWord_received : (s.withFetchWord n w).received = s.received := rfl
@[simp] theorem withFetchWord_freeCount : (s.withFetchWord n w).freeCount = s.freeCount := rfl

end Sys2Proof.Machine
end

