-- ==== Sys2Proof/Laws/Ops.lean ====
section
/-! SUPPORT. What each shared operation can do, said once. -/

namespace Sys2Proof.Machine

/-! ### Table reads -/

@[simp] theorem readG_eq (s : State) : readG s = s.gRom := by
  ext i hi : 1
  match i, hi with
  | 0, _ => rfl
  | 1, _ => rfl

@[simp] theorem readH_eq (s : State) : readH s = s.hRom := by
  ext i hi : 1
  match i, hi with
  | 0, _ => rfl
  | 1, _ => rfl
  | 2, _ => rfl

theorem syndromeOf_eq (s : State) (r : BitVec 5) : syndromeOf s r = mxv s.hRom r := by
  simp [syndromeOf]

theorem lookup_eq (s : State) (r : BitVec 5) : lookup s r = s.synRom.get (key (mxv s.hRom r)) := by
  simp [lookup, syndromeOf, romReadSyn]

/-! ### Answering -/

variable {st : Status} {n : Nat} {bits : BitVec n} {s t : State}

/-- In a ready state `respond` answers, and changes nothing but the response. -/
theorem respond_ready (h : s.ready) :
    respond st n bits s =
      .next { s with response := some (packResponse { status := st, rlen := n, rbits := bits.setWidth 8 }) } := by
  simp [respond, h.1, h.2]

/-- Everything `respond` can do when it answers a next state. -/
theorem respond_next_iff :
    respond st n bits s = .next t ↔ s.ready ∧
      t = { s with response := some (packResponse { status := st, rlen := n, rbits := bits.setWidth 8 }) } := by
  unfold respond State.ready
  cases hb : s.built <;> cases hr : s.response <;> simp [eq_comm]

theorem respond_before_reset (h : s.built = false) : respond st n bits s = .refused .beforeReset := by
  simp [respond, h]

theorem respond_overlapping (h : s.built = true) (hr : s.response ≠ none) :
    respond st n bits s = .refused .overlappingCommand := by
  simp [respond, h, Option.isNone_iff_eq_none, hr]

theorem takeResponse_next_iff :
    takeResponse s = .next t ↔
      ∃ r, s.response = some r ∧ t = { s with response := none, received := s.received ++ [r] } := by
  unfold takeResponse
  cases hr : s.response <;> simp [eq_comm]

/-! ### The response packet -/

theorem packResponse_bit (r : Response) {k : Nat} (h : k < 16) : (packResponse r).getLsbD k = rspBit r k := by
  simp [packResponse, h]

@[simp] theorem rspStatus_packResponse (r : Response) : rspStatus (packResponse r) = statusCode r.status := by
  ext i hi
  simp only [rspStatus, BitVec.getElem_extractLsb']
  rw [packResponse_bit r (by omega)]
  simp [rspBit, hi]

@[simp] theorem rspRsv1_packResponse (r : Response) : rspRsv1 (packResponse r) = false := by
  rw [rspRsv1, packResponse_bit r (by omega)]
  rfl

@[simp] theorem rspLen_packResponse (r : Response) : rspLen (packResponse r) = r.rlen % 16 := by
  have h : (packResponse r).extractLsb' 4 4 = BitVec.ofNat 4 r.rlen := by
    ext i hi
    simp only [BitVec.getElem_extractLsb']
    rw [packResponse_bit r (by omega)]
    simp [rspBit, show ¬ 4 + i < 3 by omega, show 4 + i < 8 by omega, BitVec.getLsbD_eq_getElem hi]
  simp [rspLen, h]

@[simp] theorem rspElem_packResponse (r : Response) (j : Nat) : rspElem (packResponse r) j = r.rbits.getLsbD j := by
  rw [rspElem]
  by_cases h : j < 8
  · rw [packResponse_bit r (by omega)]
    simp [rspBit, show ¬ 8 + j < 3 by omega, show ¬ 8 + j < 4 by omega]
  · rw [BitVec.getLsbD_of_ge _ _ (by omega), BitVec.getLsbD_of_ge _ _ (by omega)]

/-! ### Raising -/

/-- The packet of a response without a result is its status code alone (R135). -/
theorem packResponse_no_result (st : Status) :
    packResponse { status := st, rlen := 0, rbits := BitVec.setWidth 8 0#0 } = (statusCode st).setWidth 16 := by
  cases st <;> decide

/-- In a ready state an error is answered with its status code alone, and nothing else changes (R130, R135). -/
theorem raise_ready {st : Status} {s : State} (h : s.ready) :
    raise st s = .next { s with response := some ((statusCode st).setWidth 16) } := by
  rw [raise, respond_ready h, packResponse_no_result]

theorem raiseInvalidInput_ready {s : State} (h : s.ready) :
    raiseInvalidInput s = .next { s with response := some 0x0002 } := raise_ready h

theorem raiseUncorrectable_ready {s : State} (h : s.ready) :
    raiseUncorrectable s = .next { s with response := some 0x0003 } := raise_ready h

theorem raiseIllegalOpcode_ready {s : State} (h : s.ready) :
    raiseIllegalOpcode s = .next { s with response := some 0x0004 } := raise_ready h

/-! ### The meanings -/

/-- Every meaning ends in exactly one response: with a result it is OK, without one it carries no element. -/
theorem exec_is_respond (i : Instr) (s : State) :
    (∃ n, ∃ bits : BitVec n, (i.wf = true → n ≤ 8) ∧ exec i s = respond .ok n bits s) ∨
    (∃ st, st ≠ .ok ∧ st ≠ .illegalOpcode ∧ exec i s = raise st s) := by
  cases i with
  | add a b => exact .inl ⟨1, _, fun _ => by decide, rfl⟩
  | mul a b => exact .inl ⟨1, _, fun _ => by decide, rfl⟩
  | vmul alen a rows cols m =>
    simp only [exec, execVmul]
    split
    · exact .inr ⟨.invalidInput, by decide, by decide, rfl⟩
    · exact .inl ⟨cols, _, fun h => by simp [Instr.wf] at h; exact h.2.2, rfl⟩
  | mvmul alen a rows cols m =>
    simp only [exec, execMvmul]
    split
    · exact .inr ⟨.invalidInput, by decide, by decide, rfl⟩
    · exact .inl ⟨rows, _, fun h => by simp [Instr.wf] at h; exact h.1.2.2, rfl⟩
  | encode alen m =>
    simp only [exec, execEncode]
    split
    · exact .inl ⟨5, _, fun _ => by decide, rfl⟩
    · exact .inr ⟨.invalidInput, by decide, by decide, rfl⟩
  | syndrome alen r =>
    simp only [exec, execSyndrome]
    split
    · exact .inl ⟨3, _, fun _ => by decide, rfl⟩
    · exact .inr ⟨.invalidInput, by decide, by decide, rfl⟩
  | errvec alen r =>
    simp only [exec, execErrvec]
    split
    · split
      · exact .inl ⟨5, _, fun _ => by decide, rfl⟩
      · exact .inr ⟨.absent, by decide, by decide, rfl⟩
    · exact .inr ⟨.invalidInput, by decide, by decide, rfl⟩
  | correct alen r =>
    simp only [exec, execCorrect]
    split
    · split
      · exact .inl ⟨5, _, fun _ => by decide, rfl⟩
      · exact .inr ⟨.uncorrectable, by decide, by decide, rfl⟩
    · exact .inr ⟨.invalidInput, by decide, by decide, rfl⟩
  | decode alen c =>
    simp only [exec, execDecode]
    split
    · exact .inl ⟨2, _, fun _ => by decide, rfl⟩
    · exact .inr ⟨.invalidInput, by decide, by decide, rfl⟩

end Sys2Proof.Machine
end

