-- ==== Sys2Proof/Laws/PerInstr.lean ====
section
/-! SUPPORT. The family Opcode: the encoder puts each instruction's own opcode of R65 into `cmd[3:0]`. -/

namespace Sys2Proof.Laws

/-- The low nibble of an instruction's packet is its opcode (R65). -/
def Opcode.Statement (i : Instr) : Prop := (encode i).extractLsb' 0 4 = opcodeOf i

theorem Opcode.add (a b : Lane) : Opcode.Statement (.add a b) := packCmd_op _

theorem Opcode.mul (a b : Lane) : Opcode.Statement (.mul a b) := packCmd_op _

theorem Opcode.vmul (alen : Nat) (a : Vector Lane 8) (rows cols : Nat) (m : Vector (BitVec 8) 8) :
    Opcode.Statement (.vmul alen a rows cols m) := packCmd_op _

theorem Opcode.mvmul (alen : Nat) (a : Vector Lane 8) (rows cols : Nat) (m : Vector (BitVec 8) 8) :
    Opcode.Statement (.mvmul alen a rows cols m) := packCmd_op _

theorem Opcode.encode (alen : Nat) (m : Vector Lane 2) : Opcode.Statement (.encode alen m) := packCmd_op _

theorem Opcode.syndrome (alen : Nat) (r : Vector Lane 5) : Opcode.Statement (.syndrome alen r) := packCmd_op _

theorem Opcode.errvec (alen : Nat) (r : Vector Lane 5) : Opcode.Statement (.errvec alen r) := packCmd_op _

theorem Opcode.correct (alen : Nat) (r : Vector Lane 5) : Opcode.Statement (.correct alen r) := packCmd_op _

theorem Opcode.decode (alen : Nat) (c : Vector Lane 5) : Opcode.Statement (.decode alen c) := packCmd_op _

end Sys2Proof.Laws
end

