-- ==== Sys2Proof/Tests/Slice0.lean ====
section
/-! SUPPORT. The model's own tests. Expected values are the spec's: the worked examples and vectors of 95_test_vectors.md and
the examples of the rules named. -/

namespace Sys2Proof.Tests

open Sys2Proof.Machine

/-! ### Ill-formed instructions, one for each check of WellFormed.lean -/

theorem test_wf_refuses_vmul_len : (Instr.vmul 16 (.replicate 8 0) 1 1 (.replicate 8 0)).wf = false := by decide
theorem test_wf_refuses_vmul_rows_zero : (Instr.vmul 0 (.replicate 8 0) 0 1 (.replicate 8 0)).wf = false := by decide
theorem test_wf_refuses_vmul_rows_nine : (Instr.vmul 9 (.replicate 8 0) 9 1 (.replicate 8 0)).wf = false := by decide
theorem test_wf_refuses_vmul_cols_zero : (Instr.vmul 1 (.replicate 8 0) 1 0 (.replicate 8 0)).wf = false := by decide
theorem test_wf_refuses_vmul_cols_nine : (Instr.vmul 1 (.replicate 8 0) 1 9 (.replicate 8 0)).wf = false := by decide
theorem test_wf_refuses_mvmul_len : (Instr.mvmul 16 (.replicate 8 0) 1 1 (.replicate 8 0)).wf = false := by decide
theorem test_wf_refuses_mvmul_rows : (Instr.mvmul 1 (.replicate 8 0) 9 1 (.replicate 8 0)).wf = false := by decide
theorem test_wf_refuses_mvmul_cols : (Instr.mvmul 0 (.replicate 8 0) 1 0 (.replicate 8 0)).wf = false := by decide
theorem test_wf_refuses_encode_len : (Instr.encode 16 #v[0, 0]).wf = false := by decide
theorem test_wf_refuses_syndrome_len : (Instr.syndrome 16 #v[0, 0, 0, 0, 0]).wf = false := by decide
theorem test_wf_refuses_errvec_len : (Instr.errvec 16 #v[0, 0, 0, 0, 0]).wf = false := by decide
theorem test_wf_refuses_correct_len : (Instr.correct 16 #v[0, 0, 0, 0, 0]).wf = false := by decide
theorem test_wf_refuses_decode_len : (Instr.decode 16 #v[0, 0, 0, 0, 0]).wf = false := by decide

/-! ### Decoding: one word for each constructor, and the rejections -/

/-- R81's example `ADD 1, 1`. -/
theorem test_decode_add : decodePacket 0x00000000000000000001000000000000000111 = .ok (.add 1 1) := by decide

/-- §2.1 `MUL 0xFF, 0x01`. -/
theorem test_decode_mul : decodePacket 0x0000000000000000000100000000000000FF12 = .ok (.mul 0xFF 1) := by decide

/-- §2.2 `VMUL [1,1,1] len=15, 3 x 2, [[1,0],[0,1],[1,1]]`. -/
theorem test_decode_vmul : decodePacket 0x00000000000302010A000000000000010101F3 =
    .ok (.vmul 15 #v[1, 1, 1, 0, 0, 0, 0, 0] 3 2 #v[1, 2, 3, 0, 0, 0, 0, 0]) := by decide

/-- §2.2 `MVMUL [1,0,1,1,0], 3 x 5, H`, with B, RSV0 and cells outside 3 x 5 set. -/
theorem test_decode_mvmul : decodePacket 0x0000FF0000130BE5E2FF000000000101000154 =
    .ok (.mvmul 5 #v[1, 0, 1, 1, 0, 0, 0, 0] 3 5 #v[0xE5, 0x0B, 0x13, 0, 0, 0xFF, 0, 0]) := by decide

/-- §2.3 `ENCODE [1,0,7] len=2`. -/
theorem test_decode_encode : decodePacket 0x00000000000000000000000000000007000128 = .ok (.encode 2 #v[1, 0]) := by decide

/-- S4 `SYNDROME [1,0,1,1,0]`. -/
theorem test_decode_syndrome : decodePacket 0x00000000000000000000000000000101000159 =
    .ok (.syndrome 5 #v[1, 0, 1, 1, 0]) := by decide

/-- §2.3 `ERRVEC [1,0,1,1,9]`. -/
theorem test_decode_errvec : decodePacket 0x0000000000000000000000000009010100015A =
    .ok (.errvec 5 #v[1, 0, 1, 1, 9]) := by decide

/-- §2.3 `CORRECT [1,0,1,1,0] len=8`. -/
theorem test_decode_correct : decodePacket 0x0000000000000000000000000000010100018B =
    .ok (.correct 8 #v[1, 0, 1, 1, 0]) := by decide

/-- S7 `DECODE [1,0,1,1,1]`. -/
theorem test_decode_decode : decodePacket 0x0000000000000000000000000001010100015C =
    .ok (.decode 5 #v[1, 0, 1, 1, 1]) := by decide

/-- §2.4 OP = 0xE is reserved. -/
theorem test_decode_reserved : decodePacket 0x0000000000000000000000000001010100015E = .error (.illegalOpcode 0xE) := by decide

/-- R142 item 2: 18 bytes are no whole packet. -/
theorem test_decode_truncated : decodeBytes (List.replicate 18 0x11) = .error (.truncated 18) := by decide

/-- R42: byte 0 of `ADD 1, 1` is 0x11 and goes first; the byte after the packet is left. -/
theorem test_decode_bytes : decodeBytes ([0x11, 0x01, 0, 0, 0, 0, 0, 0, 0, 0x01] ++ List.replicate 9 0 ++ [0xAB]) =
    .ok (.add 1 1, [0xAB]) := by decide

theorem test_table_word_add : decodeTableWord 8 0x1 = some (.add 0 0) := by decide
theorem test_table_word_reserved : decodeTableWord 8 0xF = none := by decide

/-- S6: the encoder's packet of `CORRECT [1,0,1,1,0]`. -/
theorem test_encode_correct : encode (.correct 5 #v[1, 0, 1, 1, 0]) = 0x0000000000000000000000000000010100015B := by decide

/-- §2.2: the encoder's packet of `VMUL [1,1], 2 x 5, G`. -/
theorem test_encode_vmul : encode (.vmul 2 #v[1, 1, 0, 0, 0, 0, 0, 0] 2 5 #v[0x1D, 0x1A, 0, 0, 0, 0, 0, 0]) =
    0x0000000000001A1D2100000000000000010123 := by decide

/-- §2.1 `ADD 1, 1 len=7` in the notation of R70. -/
theorem test_asm_scalar : asmScalar 0x1 1 1 (some 7) = 0x00000000000000000001000000000000000171 := by decide +kernel

/-- §2.3 `ENCODE [1,0,7] len=2` in the notation of R70. -/
theorem test_asm_coder : asmCoder 0x8 [1, 0, 7] (some 2) = 0x00000000000000000000000000000007000128 := by decide +kernel

/-- §2.2 `MVMUL [1,1,1], 1 x 3, [[1,1,1]]` in the notation of R70. -/
theorem test_asm_matrix : asmMatrix 0x4 [1, 1, 1] 1 3 [[true, true, true]] =
    0x00000000000000071000000000000001010134 := by decide +kernel

/-! ### One step from reset: the response to one packet -/

/-- §2.1 `ADD 0xFE, 0xFF`: only bit 0 counts. -/
theorem test_add_bit0 : soloResponse 0x000000000000000000FF00000000000000FE11 = some 0x0110 := by decide
/-- §2.1 `ADD 1, 1`. -/
theorem test_add_ones : soloResponse 0x00000000000000000001000000000000000111 = some 0x0010 := by decide
/-- §2.1 `MUL 0x02, 0x03`. -/
theorem test_mul_bit0 : soloResponse 0x00000000000000000003000000000000000212 = some 0x0010 := by decide
/-- §2.1 `MUL 1, 1`. -/
theorem test_mul_ones : soloResponse 0x00000000000000000001000000000000000112 = some 0x0110 := by decide
/-- §2.2 `VMUL [0,1], 2 x 5, G`: not symmetric, so that swapped rows or columns would show. -/
theorem test_vmul_row1 : soloResponse 0x0000000000001A1D2100000000000000010023 = some 0x1A50 := by decide +kernel
/-- §2.2 `VMUL [1,1] len=3, 2 x 5, G`. -/
theorem test_vmul_len : soloResponse 0x0000000000001A1D2100000000000000010133 = some 0x0002 := by decide
/-- §2.2 `MVMUL [1,1], 3 x 2, [[1,0],[0,1],[1,1]]`. -/
theorem test_mvmul_3x2 : soloResponse 0x00000000000302010A00000000000000010124 = some 0x0330 := by decide +kernel
/-- §2.2 `MVMUL [1,0,1,1,0], 3 x 5, H` with ignored fields set. -/
theorem test_mvmul_ignored : soloResponse 0x0000FF0000130BE5E2FF000000000101000154 = some 0x0430 := by decide +kernel
/-- S2 `ENCODE [0,1]`. -/
theorem test_encode_row1 : soloResponse 0x00000000000000000000000000000000010028 = some 0x1A50 := by decide
/-- S10 `ENCODE [0,2]`. -/
theorem test_encode_nonbinary : soloResponse 0x00000000000000000000000000000000020028 = some 0x0002 := by decide
/-- S4 `SYNDROME [1,0,1,1,0]`: H's fifth column. -/
theorem test_syndrome_column4 : soloResponse 0x00000000000000000000000000000101000159 = some 0x0430 := by decide +kernel
/-- S9 `SYNDROME [1,0,1]`. -/
theorem test_syndrome_len : soloResponse 0x00000000000000000000000000000001000139 = some 0x0002 := by decide
/-- S5 `ERRVEC [1,0,1,1,0]`. -/
theorem test_errvec_single : soloResponse 0x0000000000000000000000000000010100015A = some 0x1050 := by decide
/-- R104 `ERRVEC [1,0,0,0,1]`. -/
theorem test_errvec_absent : soloResponse 0x0000000000000000000000000001000000015A = some 0x0001 := by decide
/-- S6 `CORRECT [1,0,1,1,0]`. -/
theorem test_correct_single : soloResponse 0x0000000000000000000000000000010100015B = some 0x1D50 := by decide
/-- R105 `CORRECT [1,0,0,0,1]`. -/
theorem test_correct_double : soloResponse 0x0000000000000000000000000001000000015B = some 0x0003 := by decide
/-- §3 row [0,1,0,0,0]: not a codeword. -/
theorem test_decode_noncodeword : soloResponse 0x0000000000000000000000000000000001005C = some 0x0220 := by decide
/-- §2.3 `DECODE [1,0,1,1,3]`: a non-binary parity element. -/
theorem test_decode_nonbinary : soloResponse 0x0000000000000000000000000003010100015C = some 0x0002 := by decide
/-- P5 row 2, OP = 0x7. -/
theorem test_illegal_opcode : soloResponse 0x00000000000000000000000000000000010027 = some 0x0004 := by decide

/-! ### Witnesses: states and operands that meet the hypotheses of the statements -/

/-- A ready state of the invariant: reset itself. -/
theorem witness_reset_inv : State.reset.Inv :=
  ⟨rfl, rfl, fun _ => by decide +kernel, fun _ h => (by cases h), fun _ h => (by cases h)⟩
theorem witness_reset_ready : State.reset.ready := by decide

/-- A state of the invariant with a response outstanding. -/
def answered : State := { State.reset with response := some 0x1D50 }
theorem witness_answered_inv : answered.Inv := by
  refine ⟨rfl, rfl, fun _ => witness_reset_inv.2.2.1 rfl, fun p h => ?_, fun _ h => (by cases h)⟩
  rw [show p = 0x1D50 from by simpa [answered] using h]
  decide +kernel
theorem witness_overlap : answered.built = true ∧ answered.response = some 0x1D50 := by decide

/-- StepKeepsInv: a state of the invariant whose step answers a next state. -/
theorem witness_step_next : answered.Inv ∧
    step { answered with inputs := [.takeResponse] } = .next { State.reset with received := [0x1D50] } :=
  ⟨witness_answered_inv, rfl⟩

/-- ResetBuildsSyndromeTable: H has five distinct non-zero columns. -/
theorem witness_columns_distinct :
    (∀ p < 5, mxv State.reset.hRom (unitVector p) ≠ 0) ∧
    (∀ p < 5, ∀ q < 5, mxv State.reset.hRom (unitVector p) = mxv State.reset.hRom (unitVector q) → p = q) := by decide +kernel

/-- … and the key 5 is neither 0 nor the key of a column, so that its last clause is met too. -/
theorem witness_key_unmapped : (5 : Fin 8) ≠ 0 ∧ ∀ p < 5, (5 : Fin 8) ≠ key (mxv State.reset.hRom (unitVector p)) := by decide +kernel

theorem witness_before_reset : State.powerOn.built = false := rfl
theorem witness_idle : State.reset.inputs = [] ∧ State.reset.response = none := by decide

/-- StepRunsDecodedInstruction: `ENCODE [1,0]` presented after reset. -/
theorem witness_decoded :
    decodePacket 0x00000000000000000000000000000000000128 = .ok (.encode 2 #v[1, 0]) := by decide

/-- DecodeEncodeRoundTrip: at the largest operands. -/
theorem witness_wf_largest : (Instr.vmul 15 (.replicate 8 0xFF) 8 8 (.replicate 8 0xFF)).wf = true := by decide
theorem witness_wf_smallest : (Instr.mvmul 0 (.replicate 8 0) 1 1 (.replicate 8 0)).wf = true := by decide
theorem witness_wf_coder : (Instr.correct 15 (.replicate 5 0xFF)).wf = true := by decide

/-- DecodedIsWellFormedAndKeepsListedBits: ADD reads bits 8 and 72 and not bit 9. -/
theorem witness_listed_bits : listedBit 0x1 8 = true ∧ listedBit 0x1 72 = true ∧ listedBit 0x1 9 = false := by decide +kernel

/-- IgnoredFieldsHaveNoEffect, first clause: two different packets that agree on the fields ADD reads. -/
theorem witness_ignored_fields : (0x1 : CmdPacket) ≠ 0x0F1 ∧
    ∀ k < 152, listedBit 0x1 k = true → (0x1 : CmdPacket).getLsbD k = (0x0F1 : CmdPacket).getLsbD k := by decide +kernel

/-- … second clause: a length that does not conform, of VMUL, MVMUL and each coder command. -/
theorem witness_wrong_len :
    ((0x03 : CmdPacket).extractLsb' 0 4 = 0x3 ∧ ((0x03 : CmdPacket).extractLsb' 4 4).toNat ≠ ((0x03 : CmdPacket).extractLsb' 80 3).toNat + 1) ∧
    ((0x24 : CmdPacket).extractLsb' 0 4 = 0x4 ∧ ((0x24 : CmdPacket).extractLsb' 4 4).toNat ≠ ((0x24 : CmdPacket).extractLsb' 83 3).toNat + 1) ∧
    ((0x38 : CmdPacket).extractLsb' 0 4 = 0x8 ∧ ((0x38 : CmdPacket).extractLsb' 4 4).toNat ≠ 2) ∧
    ((0x49 : CmdPacket).extractLsb' 0 4 = 0x9 ∧ ((0x49 : CmdPacket).extractLsb' 4 4).toNat ≠ 5) ∧
    ((0x6A : CmdPacket).extractLsb' 0 4 = 0xA ∧ ((0x6A : CmdPacket).extractLsb' 4 4).toNat ≠ 5) ∧
    ((0x0B : CmdPacket).extractLsb' 0 4 = 0xB ∧ ((0x0B : CmdPacket).extractLsb' 4 4).toNat ≠ 5) ∧
    ((0xFC : CmdPacket).extractLsb' 0 4 = 0xC ∧ ((0xFC : CmdPacket).extractLsb' 4 4).toNat ≠ 5) := by decide +kernel

/-- ReservedOpcodeAnswered: the all-zero packet. -/
theorem witness_reserved : (0 : CmdPacket).extractLsb' 0 4 ∈ [0x0#4, 0x5#4, 0x6#4, 0x7#4, 0xD#4, 0xE#4, 0xF#4] := by decide

/-- VmulAnswersProduct and MvmulAnswersProduct: an 8 × 8 packet of conforming length, and one of length 15. -/
theorem witness_vmul_packets :
    (0xFFFFFFFFFFFFFFFF3F00010101010101010183 : CmdPacket).extractLsb' 0 4 = 0x3 ∧
    ((0xFFFFFFFFFFFFFFFF3F00010101010101010183 : CmdPacket).extractLsb' 4 4).toNat =
      ((0xFFFFFFFFFFFFFFFF3F00010101010101010183 : CmdPacket).extractLsb' 80 3).toNat + 1 ∧
    (0xF3 : CmdPacket).extractLsb' 0 4 = 0x3 ∧
    ((0xF3 : CmdPacket).extractLsb' 4 4).toNat ≠ ((0xF3 : CmdPacket).extractLsb' 80 3).toNat + 1 := by decide +kernel
theorem witness_mvmul_packets :
    (0xFFFFFFFFFFFFFFFF3F00010101010101010184 : CmdPacket).extractLsb' 0 4 = 0x4 ∧
    ((0xFFFFFFFFFFFFFFFF3F00010101010101010184 : CmdPacket).extractLsb' 4 4).toNat =
      ((0xFFFFFFFFFFFFFFFF3F00010101010101010184 : CmdPacket).extractLsb' 83 3).toNat + 1 ∧
    (0xF4 : CmdPacket).extractLsb' 0 4 = 0x4 ∧
    ((0xF4 : CmdPacket).extractLsb' 4 4).toNat ≠ ((0xF4 : CmdPacket).extractLsb' 83 3).toNat + 1 := by decide

/-- The coder statements: binary and non-binary operands. -/
theorem witness_binary : binary (#v[1, 0] : Vector Lane 2) ∧ binary (#v[1, 0, 1, 1, 0] : Vector Lane 5) ∧
    ¬ binary (#v[0, 2] : Vector Lane 2) ∧ ¬ binary (#v[1, 0, 1, 1, 0xFF] : Vector Lane 5) := by decide

/-- ErrvecAnswersErrorVector and CorrectAnswersCodeword: a codeword, a word with one error, and a word of each unmapped
syndrome. -/
theorem witness_error_classes :
    (weight (0 : BitVec 5) ≤ 1 ∧ 0b11101#5 ^^^ 0#5 ∈ codewords) ∧
    (weight 0b10000#5 ≤ 1 ∧ 0b01101#5 ^^^ 0b10000#5 ∈ codewords) ∧
    mxv Config.hMatrix 0b10100#5 = 0b101 ∧ mxv Config.hMatrix 0b10001#5 = 0b011 := by decide

/-- The lanes of a Bit vector are its elements in order. -/
theorem witness_lanesOf : lanesOf 0b01101#5 = #v[1, 0, 1, 1, 0] := by decide

/-- SingleErrorsAreCorrected: vectors with an element 2. -/
theorem witness_element_two : (∃ i : Fin 2, (#v[0, 2] : Vector Lane 2)[i] = 2) ∧
    (∃ i : Fin 5, (#v[0, 2, 0, 0, 0] : Vector Lane 5)[i] = 2) := by decide

/-- CorrectFindsNearestCodeword: a word near a codeword, and one near none. -/
theorem witness_distances : distance 0b01101#5 0b11101#5 ≤ 1 ∧ ∀ c ∈ codewords, 2 ≤ distance 0b10001#5 c := by decide

/-- Another of the 24 candidates for H (R23): row 0 added to by row 1. -/
def otherH : BitMatrix 3 5 := #v[0x0E#5, 0x0B#5, 0x13#5]

/-- ResponsesDoNotDependOnChoiceOfH: its null space is the code, and it is not H. -/
theorem witness_otherH : (∀ r : BitVec 5, mxv otherH r = 0 ↔ r ∈ codewords) ∧ otherH ≠ Config.hMatrix := by decide

/-- A mapping of host elements that keeps duty 3. -/
def clampLane (x : Int) : Lane := if 0 ≤ x ∧ x ≤ 255 then BitVec.ofNat 8 x.toNat else 2

/-- MappedNonBinaryElementRejected: such a mapping exists, and -1 is an element that is neither 0 nor 1. -/
theorem witness_laneDuty : LaneDuty clampLane ∧ (∃ i : Fin 2, (#v[0, -1] : Vector Int 2)[i] ≠ 0 ∧ (#v[0, -1] : Vector Int 2)[i] ≠ 1) ∧
    (∃ i : Fin 5, (#v[0, 0, 0, 0, 300] : Vector Int 5)[i] ≠ 0 ∧ (#v[0, 0, 0, 0, 300] : Vector Int 5)[i] ≠ 1) := by
  refine ⟨⟨fun x h0 h1 => ?_, fun x h => ?_⟩, by decide, by decide⟩
  · have hx : x.toNat < 256 := by omega
    simp [clampLane, h0, h1, Nat.mod_eq_of_lt hx]
  · have hx : ¬ (0 ≤ x ∧ x ≤ 255) := by omega
    simp [clampLane, hx]

/-- InvalidInputCauses, UnmappedSyndromeStatus, OnlyResetOrPowerLossChangesTables: executions that answer a next state. -/
theorem witness_exec_invalid :
    exec (.encode 3 #v[1, 0]) State.reset = .next { State.reset with response := some 0x0002 } := rfl
theorem witness_exec_uncorrectable : (Host.Outcome.next { State.reset with response := some 0x0003 } :
    Host.Outcome State Fault Refusal) = exec (.correct 5 #v[1, 0, 0, 0, 1]) State.reset := by
  rfl

/-- ResponseDependsOnPacketAndTables: two different ready states with equal tables, and two orders of two packets. -/
theorem witness_equal_tables : State.reset ≠ { State.reset with received := [0x0010] } ∧
    State.ready { State.reset with received := [0x0010] } ∧ [(0x1 : CmdPacket), 0x2].Perm [0x2, 0x1] :=
  ⟨by decide, by decide, List.Perm.swap _ _ _⟩

/-- StatusPriority: a packet for each condition of R136 — a reserved opcode, a wrong length beside a non-binary element,
R136's `CORRECT [1,0,0,0,2]`, the same word with a Bit there, and ERRVEC of it. -/
theorem witness_priority :
    priorityStatus 0x00000000000000000000000000010101000150 = 4 ∧ priorityStatus 0x00000000000000000000000000000000020038 = 2 ∧
    priorityStatus 0x0000000000000000000000000002000000015B = 2 ∧ priorityStatus 0x0000000000000000000000000001000000015B = 3 ∧
    priorityStatus 0x0000000000000000000000000001000000015A = 1 ∧ priorityStatus 0x00000000000000000001000000000000000171 = 0 := by
  decide +kernel

/-- DutifulRunAnswersEveryCommand: a list of events of every kind that keeps the duties, from reset and from a state with a
response outstanding. -/
theorem witness_dutiful :
    dutiful true false [.command 0x1, .reset, .takeResponse, .powerLoss, .reset, .command 0x11] = true ∧
    dutiful answered.built answered.response.isSome [.takeResponse, .command 0x2] = true := by decide

end Sys2Proof.Tests
end

section
/-! PROOFS. The state: its values after reset, and what each command and each event may change (10_state.md). -/

namespace Sys2Proof.Machine

/-! ### What a command and an event can do -/

/-- The frame of an answer, whatever it holds: the state was ready, and only the response changes. -/
theorem respond_next {st : Status} {n : Nat} {bits : BitVec n} {s t : State} (h : respond st n bits s = .next t) :
    s.ready ∧ ∃ r, t = { s with response := some r } := by
  obtain ⟨hready, ht⟩ := respond_next_iff.mp h
  exact ⟨hready, _, ht⟩

/-- Everything an instruction can do when it answers: the state was ready, and only the response changes (R32, R80, R110). -/
theorem exec_next {i : Instr} {s t : State} (h : exec i s = .next t) :
    s.ready ∧ ∃ r, t = { s with response := some r } := by
  obtain ⟨n, bits, -, hi⟩ | ⟨st, -, -, hi⟩ := exec_is_respond i s
  · exact respond_next (hi ▸ h)
  · exact respond_next (hi ▸ h)

/-- As `exec_next`, for every packet: a reserved opcode too changes only the response (R66). -/
theorem runCommand_next {p : CmdPacket} {s t : State} (h : runCommand p s = .next t) :
    s.ready ∧ ∃ r, t = { s with response := some r } := by
  unfold runCommand at h
  split at h
  · exact exec_next h
  · exact respond_next h

/-- Everything a step can do when it answers a next state, event by event. -/
theorem step_next_cases {s t : State} (h : step s = .next t) :
    (s.inputs = [] ∧ t = s) ∨
    (∃ p rest, s.inputs = .command p :: rest ∧ runCommand p { s with inputs := rest } = .next t) ∨
    (∃ rest r, s.inputs = .takeResponse :: rest ∧ s.response = some r ∧
      t = { s with inputs := rest, response := none, received := s.received ++ [r] }) ∨
    (∃ rest, s.inputs = .reset :: rest ∧ t = resetBlock { s with inputs := rest }) ∨
    (∃ rest, s.inputs = .powerLoss :: rest ∧ t = powerLoss { s with inputs := rest }) := by
  unfold step at h
  split at h
  case h_1 hin => exact .inl ⟨hin, by simpa using h.symm⟩
  case h_2 p rest hin => exact .inr (.inl ⟨p, rest, hin, h⟩)
  case h_3 rest hin =>
    obtain ⟨r, hr, ht⟩ := takeResponse_next_iff.mp h
    exact .inr (.inr (.inl ⟨rest, r, hin, hr, ht⟩))
  case h_4 rest hin => exact .inr (.inr (.inr (.inl ⟨rest, hin, by simpa using h.symm⟩)))
  case h_5 rest hin => exact .inr (.inr (.inr (.inr ⟨rest, hin, by simpa using h.symm⟩)))

/-- No step changes a hardwired matrix (R32, R151). -/
theorem step_keeps_matrices {s t : State} (h : step s = .next t) : t.gRom = s.gRom ∧ t.hRom = s.hRom := by
  obtain ⟨-, rfl⟩ | ⟨p, rest, -, hrun⟩ | ⟨rest, r, -, -, rfl⟩ | ⟨rest, -, rfl⟩ | ⟨rest, -, rfl⟩ := step_next_cases h
  case inr.inl =>
    obtain ⟨-, r, rfl⟩ := runCommand_next hrun
    exact ⟨rfl, rfl⟩
  all_goals exact ⟨rfl, rfl⟩

/-- A step that neither resets the block nor loses power keeps `SYN_ROM` and `BUILT` (R32). -/
theorem step_keeps_synRom_built {s t : State} (h : step s = .next t)
    (hreset : ∀ rest, s.inputs ≠ .reset :: rest) (hpower : ∀ rest, s.inputs ≠ .powerLoss :: rest) :
    t.synRom = s.synRom ∧ t.built = s.built := by
  obtain ⟨-, rfl⟩ | ⟨p, rest, -, hrun⟩ | ⟨rest, r, -, -, rfl⟩ | ⟨rest, hin, -⟩ | ⟨rest, hin, -⟩ := step_next_cases h
  · exact ⟨rfl, rfl⟩
  · obtain ⟨-, r, rfl⟩ := runCommand_next hrun
    exact ⟨rfl, rfl⟩
  · exact ⟨rfl, rfl⟩
  · exact absurd hin (hreset rest)
  · exact absurd hin (hpower rest)

/-- Settles O43, by the frame of an instruction and the two frames of a step. -/
theorem onlyResetOrPowerLossChangesTables : Obligations.OnlyResetOrPowerLossChangesTables := by
  refine ⟨fun i s t h => (exec_next h).2, fun s t h => ?_⟩
  obtain ⟨hg, hh⟩ := step_keeps_matrices h
  refine ⟨hg, hh, fun hchange => ?_⟩
  by_contra hin
  push Not at hin
  obtain ⟨hsyn, hbuilt⟩ := step_keeps_synRom_built h (fun rest => (hin rest).1) (fun rest => (hin rest).2)
  exact hchange.elim (· hsyn) (· hbuilt)

/-! ### The values after reset -/

/-- The table that reset builds from the hardwired H is the image of R27. -/
theorem buildSynRom_hMatrix : buildSynRom Config.hMatrix = synImage := by decide

/-- Settles O1: the table is the one reset builds from H (R27, R150); every other value is read off the definitions. -/
theorem resetValues : Obligations.ResetValues :=
  ⟨rfl, rfl, buildSynRom_hMatrix, rfl, rfl, rfl, rfl, rfl⟩

end Sys2Proof.Machine
end

section
/-! PROOFS. Packets on a byte-wide bus: which bits each byte holds, and what a byte sequence decodes to (20_memory.md). -/

namespace Sys2Proof.Machine

/-! ### The bytes of a packet -/

/-- Bit `j` of byte `b` of a command packet (R42). -/
theorem packetBytes_bit (p : CmdPacket) {b j : Nat} (hb : b < 19) (hj : j < 8) :
    ((packetBytes p).getD b 0).getLsbD j = p.getLsbD (8 * b + j) := by
  rw [getD_packetBytes p hb]
  simp [hj]

/-- Byte `b` of a response packet (R42). -/
theorem getD_rspBytes (r : RspPacket) {b : Nat} (h : b < 2) : (rspBytes r).getD b 0 = r.extractLsb' (8 * b) 8 := by
  interval_cases b <;> rfl

/-- Bit `j` of byte `b` of a response packet (R42). -/
theorem rspBytes_bit (r : RspPacket) {b j : Nat} (hb : b < 2) (hj : j < 8) :
    ((rspBytes r).getD b 0).getLsbD j = r.getLsbD (8 * b + j) := by
  rw [getD_rspBytes r hb]
  simp [hj]

/-- The fields `ALEN` and `OP` are next to each other in bits `[7:0]` (R56). -/
theorem unpackCmd_alen_append_op (p : CmdPacket) : (unpackCmd p).alen ++ (unpackCmd p).op = p.extractLsb' 0 8 :=
  BitVec.extractLsb'_append_extractLsb'_eq_extractLsb' rfl

theorem head?_packetBytes (p : CmdPacket) : (packetBytes p).head? = some ((unpackCmd p).alen ++ (unpackCmd p).op) := by
  rw [unpackCmd_alen_append_op]
  rfl

/-! ### Reading a packet back from a byte sequence -/

/-- Only the first 19 bytes count, and those of a packet give that packet back, bit by bit. -/
theorem bytesPacket_packetBytes_append (p : CmdPacket) (rest : List Byte) : bytesPacket (packetBytes p ++ rest) = p := by
  refine BitVec.eq_of_getLsbD_eq fun k hk => ?_
  have hbyte : k / 8 < 19 := by omega
  have hlen : k / 8 < (packetBytes p).length := by rwa [length_packetBytes]
  rw [bytesPacket_bit _ hk, List.getD_append _ _ _ _ hlen, packetBytes_bit p hbyte (by omega), Nat.div_add_mod]

/-- A byte sequence that begins with a packet's 19 bytes is not truncated, and the bytes after them are left. -/
theorem decodeBytes_packetBytes_append (p : CmdPacket) (rest : List Byte) :
    decodeBytes (packetBytes p ++ rest) = (decodePacket p).map fun i => (i, rest) := by
  have hlen : ¬ (packetBytes p ++ rest).length < Config.cmdBytes := by simp [length_packetBytes]
  have hrest : (packetBytes p ++ rest).drop Config.cmdBytes = rest := List.drop_left' (length_packetBytes p)
  rw [decodeBytes, if_neg hlen, bytesPacket_packetBytes_append, hrest]
  cases decodePacket p <;> rfl

/-- Settles O16, by the bits of each byte and the decoding of a byte sequence that begins with a packet's bytes. -/
theorem packetByteOrder : Obligations.PacketByteOrder :=
  ⟨fun r => ⟨rfl, fun _ hb _ hj => rspBytes_bit r hb hj⟩,
    fun p rest => ⟨length_packetBytes p, fun _ hb _ hj => packetBytes_bit p hb hj, head?_packetBytes p,
      decodeBytes_packetBytes_append p rest⟩⟩

end Sys2Proof.Machine
end

section
/-! PROOFS. The packet: which instruction each opcode selects, which bits an operation reads, and the form of every response
(30_encoding.md). -/

namespace Sys2Proof.Machine

/-! ### Which instruction a packet decodes to -/

/-- Every opcode is one of the nine of R65 or a reserved one (R66). -/
theorem opcode_cases : ∀ op : BitVec 4,
    op = 0x1 ∨ op = 0x2 ∨ op = 0x3 ∨ op = 0x4 ∨ op = 0x8 ∨ op ∈ [0x9#4, 0xA#4, 0xB#4, 0xC#4] ∨
      op ∈ [0x0#4, 0x5#4, 0x6#4, 0x7#4, 0xD#4, 0xE#4, 0xF#4] := by decide

section Decode
variable {p : CmdPacket}

/-- The decoder looks at the opcode first: with its value known, the arm of R65 is found by computation. -/
theorem decodePacket_of_op {op : BitVec 4} (h : p.extractLsb' 0 4 = op) :
    decodePacket p = decodeCmd { unpackCmd p with op := op } := by
  subst h
  rfl

theorem decodePacket_add (h : p.extractLsb' 0 4 = 0x1) :
    decodePacket p = .ok (.add (p.extractLsb' 8 8) (p.extractLsb' 72 8)) := by
  rw [← unpackCmd_lane p (i := 0) (by omega)]
  exact decodePacket_of_op h

theorem decodePacket_mul (h : p.extractLsb' 0 4 = 0x2) :
    decodePacket p = .ok (.mul (p.extractLsb' 8 8) (p.extractLsb' 72 8)) := by
  rw [← unpackCmd_lane p (i := 0) (by omega)]
  exact decodePacket_of_op h

theorem decodePacket_vmul (h : p.extractLsb' 0 4 = 0x3) :
    decodePacket p = .ok (.vmul (p.extractLsb' 4 4).toNat (unpackCmd p).a (dimOf (p.extractLsb' 80 3))
      (dimOf (p.extractLsb' 83 3)) (unpackCmd p).mrow) :=
  decodePacket_of_op h

theorem decodePacket_mvmul (h : p.extractLsb' 0 4 = 0x4) :
    decodePacket p = .ok (.mvmul (p.extractLsb' 4 4).toNat (unpackCmd p).a (dimOf (p.extractLsb' 80 3))
      (dimOf (p.extractLsb' 83 3)) (unpackCmd p).mrow) :=
  decodePacket_of_op h

theorem decodePacket_encode (h : p.extractLsb' 0 4 = 0x8) :
    decodePacket p = .ok (.encode (p.extractLsb' 4 4).toNat (firstLanes 2 (unpackCmd p).a)) :=
  decodePacket_of_op h

theorem decodePacket_syndrome (h : p.extractLsb' 0 4 = 0x9) :
    decodePacket p = .ok (.syndrome (p.extractLsb' 4 4).toNat (firstLanes 5 (unpackCmd p).a)) :=
  decodePacket_of_op h

theorem decodePacket_errvec (h : p.extractLsb' 0 4 = 0xA) :
    decodePacket p = .ok (.errvec (p.extractLsb' 4 4).toNat (firstLanes 5 (unpackCmd p).a)) :=
  decodePacket_of_op h

theorem decodePacket_correct (h : p.extractLsb' 0 4 = 0xB) :
    decodePacket p = .ok (.correct (p.extractLsb' 4 4).toNat (firstLanes 5 (unpackCmd p).a)) :=
  decodePacket_of_op h

theorem decodePacket_decode (h : p.extractLsb' 0 4 = 0xC) :
    decodePacket p = .ok (.decode (p.extractLsb' 4 4).toNat (firstLanes 5 (unpackCmd p).a)) :=
  decodePacket_of_op h

theorem decodePacket_reserved (h : p.extractLsb' 0 4 ∈ [0x0#4, 0x5#4, 0x6#4, 0x7#4, 0xD#4, 0xE#4, 0xF#4]) :
    decodePacket p = .error (.illegalOpcode (p.extractLsb' 0 4)) := by
  simp only [List.mem_cons, List.not_mem_nil, or_false] at h
  obtain h | h | h | h | h | h | h := h <;> rw [decodePacket_of_op h, h] <;> rfl

end Decode

/-- Settles O12, by the decoding of each opcode. -/
theorem opcodeMap : Obligations.OpcodeMap := fun _ =>
  ⟨fun h => ⟨_, _, decodePacket_add h⟩, fun h => ⟨_, _, decodePacket_mul h⟩,
    fun h => ⟨_, _, _, _, _, decodePacket_vmul h⟩, fun h => ⟨_, _, _, _, _, decodePacket_mvmul h⟩,
    fun h => ⟨_, _, decodePacket_encode h⟩, fun h => ⟨_, _, decodePacket_syndrome h⟩,
    fun h => ⟨_, _, decodePacket_errvec h⟩, fun h => ⟨_, _, decodePacket_correct h⟩,
    fun h => ⟨_, _, decodePacket_decode h⟩, fun h => decodePacket_reserved (by simpa using h)⟩

/-! ### Running a packet -/

theorem step_command (s : State) (p : CmdPacket) (rest : List HostEvent) :
    step { s with inputs := .command p :: rest } = runCommand p { s with inputs := rest } := rfl

theorem runCommand_of_decode {p : CmdPacket} {i : Instr} (h : decodePacket p = .ok i) (s : State) :
    runCommand p s = exec i s := by
  rw [runCommand, h]

theorem runCommand_reserved {p : CmdPacket}
    (h : p.extractLsb' 0 4 ∈ [0x0#4, 0x5#4, 0x6#4, 0x7#4, 0xD#4, 0xE#4, 0xF#4]) (s : State) :
    runCommand p s = raiseIllegalOpcode s := by
  rw [runCommand, decodePacket_reserved h]

/-- Packets that decode alike run alike. -/
theorem runCommand_congr {p q : CmdPacket} (h : decodePacket p = decodePacket q) (s : State) :
    runCommand p s = runCommand q s := by
  rw [runCommand, h, runCommand]

/-! ### The bits of the operands -/

theorem dimOf_le (d : BitVec 3) : dimOf d ≤ 8 := d.isLt

theorem bit0_extractLsb' (p : CmdPacket) (pos : Nat) : bit0 (p.extractLsb' pos 8) = p.getLsbD pos := by
  simp [bit0]

/-- The elements of the vector of VMUL and MVMUL, in the packet (R57, R69). -/
theorem arithVector_unpackCmd_bit (p : CmdPacket) {n i : Nat} (hn : n ≤ 8) (hi : i < n) :
    (arithVector n (unpackCmd p).a).getLsbD i = p.getLsbD (8 + 8 * i) := by
  rw [arithVector_bit _ hi, unpackCmd_lane p (by omega)]
  exact bit0_extractLsb' p _

/-- The cells of the matrix of VMUL and MVMUL, in the packet (R60). -/
theorem cell_commandMatrix_unpackCmd (p : CmdPacket) {rows cols i j : Nat} (hrows : rows ≤ 8) (hcols : cols ≤ 8)
    (hi : i < rows) (hj : j < cols) :
    cell (commandMatrix rows cols (unpackCmd p).mrow) i j = p.getLsbD (88 + 8 * i + j) := by
  rw [cell_commandMatrix _ hi hj, unpackCmd_row p (by omega)]
  simp [show j < 8 by omega]

/-- A matrix is its cells. -/
theorem bitMatrix_ext {r c : Nat} {m m' : BitMatrix r c} (h : ∀ i < r, ∀ j < c, cell m i j = cell m' i j) : m = m' := by
  ext i hi j hj
  simpa [cell, getD_of_lt, hi, BitVec.getLsbD_eq_getElem hj] using h i hi j hj

section Agree
variable {p q : CmdPacket}

theorem extractLsb'_congr {pos w : Nat} (h : ∀ k, pos ≤ k → k < pos + w → p.getLsbD k = q.getLsbD k) :
    p.extractLsb' pos w = q.extractLsb' pos w := by
  ext i hi
  simpa using h (pos + i) (by omega) (by omega)

theorem arithVector_congr {n : Nat} (hn : n ≤ 8) (h : ∀ i < n, p.getLsbD (8 + 8 * i) = q.getLsbD (8 + 8 * i)) :
    arithVector n (unpackCmd p).a = arithVector n (unpackCmd q).a := by
  refine BitVec.eq_of_getLsbD_eq fun i hi => ?_
  rw [arithVector_unpackCmd_bit p hn hi, arithVector_unpackCmd_bit q hn hi, h i hi]

theorem commandMatrix_congr {rows cols : Nat} (hrows : rows ≤ 8) (hcols : cols ≤ 8)
    (h : ∀ i < rows, ∀ j < cols, p.getLsbD (88 + 8 * i + j) = q.getLsbD (88 + 8 * i + j)) :
    commandMatrix rows cols (unpackCmd p).mrow = commandMatrix rows cols (unpackCmd q).mrow := by
  refine bitMatrix_ext fun i hi j hj => ?_
  rw [cell_commandMatrix_unpackCmd p hrows hcols hi hj, cell_commandMatrix_unpackCmd q hrows hcols hi hj, h i hi j hj]

theorem firstLanes_congr {n : Nat} (hn : n ≤ 8) (h : ∀ k < 8 + 8 * n, p.getLsbD k = q.getLsbD k) :
    firstLanes n (unpackCmd p).a = firstLanes n (unpackCmd q).a := by
  ext i hi : 1
  simp only [firstLanes, Vector.getElem_ofFn]
  rw [unpackCmd_lane p (by omega), unpackCmd_lane q (by omega)]
  exact extractLsb'_congr fun k _ hk => h k (by omega)

/-! ### Packets that agree on the bits their operation reads (R61) -/

/-- Two packets agree on every bit that R61 lists for the operation of the first. -/
def AgreeOnListed (p q : CmdPacket) : Prop := ∀ k < 152, listedBit p k = true → p.getLsbD k = q.getLsbD k

/-- Such packets select the same operation: `OP` is listed for all. -/
theorem AgreeOnListed.op (h : AgreeOnListed p q) : q.extractLsb' 0 4 = p.extractLsb' 0 4 :=
  (extractLsb'_congr fun k _ hk => h k (by omega) (by simp [listedBit, show k < 4 by omega])).symm

/-- ADD and MUL read bit 0 of `A[0]` and of `B`. -/
theorem AgreeOnListed.scalar (h : AgreeOnListed p q) (hop : p.extractLsb' 0 4 = 0x1 ∨ p.extractLsb' 0 4 = 0x2) :
    bit0 (p.extractLsb' 8 8) = bit0 (q.extractLsb' 8 8) ∧ bit0 (p.extractLsb' 72 8) = bit0 (q.extractLsb' 72 8) := by
  simp only [bit0_extractLsb']
  exact ⟨h 8 (by omega) (by obtain hop | hop := hop <;> simp [listedBit, hop]),
    h 72 (by omega) (by obtain hop | hop := hop <;> simp [listedBit, hop])⟩

/-- What VMUL (with `n` the row count) and MVMUL (with `n` the column count) read. -/
structure SameMatrixOperands (n : Nat) (p q : CmdPacket) : Prop where
  alen : p.extractLsb' 4 4 = q.extractLsb' 4 4
  rows : p.extractLsb' 80 3 = q.extractLsb' 80 3
  cols : p.extractLsb' 83 3 = q.extractLsb' 83 3
  vector : arithVector n (unpackCmd p).a = arithVector n (unpackCmd q).a
  matrix : commandMatrix (dimOf (p.extractLsb' 80 3)) (dimOf (p.extractLsb' 83 3)) (unpackCmd p).mrow =
    commandMatrix (dimOf (p.extractLsb' 80 3)) (dimOf (p.extractLsb' 83 3)) (unpackCmd q).mrow

/-- The bits that R61 lists for VMUL and MVMUL: `OP` and `ALEN`, bit 0 of the first `n` lanes, the dimensions, and the cells. -/
def matrixListed (n rows cols k : Nat) : Prop :=
  k < 8 ∨ (8 ≤ k ∧ (k - 8) % 8 = 0 ∧ (k - 8) / 8 < n) ∨ (80 ≤ k ∧ k < 86) ∨
    (88 ≤ k ∧ (k - 88) / 8 < rows ∧ (k - 88) % 8 < cols)

theorem listedBit_vmul {k : Nat} (hop : p.extractLsb' 0 4 = 0x3) :
    listedBit p k = true ↔
      matrixListed (dimOf (p.extractLsb' 80 3)) (dimOf (p.extractLsb' 80 3)) (dimOf (p.extractLsb' 83 3)) k := by
  simp only [listedBit, hop, BitVec.ofNat_eq_ofNat, BitVec.toNat_ofNat, Nat.reducePow, Nat.reduceMod, Bool.or_eq_true,
    Bool.and_eq_true, decide_eq_true_eq, beq_iff_eq, matrixListed, dimOf]
  omega

theorem listedBit_mvmul {k : Nat} (hop : p.extractLsb' 0 4 = 0x4) :
    listedBit p k = true ↔
      matrixListed (dimOf (p.extractLsb' 83 3)) (dimOf (p.extractLsb' 80 3)) (dimOf (p.extractLsb' 83 3)) k := by
  simp only [listedBit, hop, BitVec.ofNat_eq_ofNat, BitVec.toNat_ofNat, Nat.reducePow, Nat.reduceMod, Bool.or_eq_true,
    Bool.and_eq_true, decide_eq_true_eq, beq_iff_eq, matrixListed, dimOf]
  omega

/-- Packets that agree on those bits have the same operands. -/
theorem AgreeOnListed.matrixOperands {n : Nat} (h : AgreeOnListed p q) (hn : n ≤ 8)
    (hlisted : ∀ k, matrixListed n (dimOf (p.extractLsb' 80 3)) (dimOf (p.extractLsb' 83 3)) k → listedBit p k = true) :
    SameMatrixOperands n p q := by
  have hrows := dimOf_le (p.extractLsb' 80 3)
  have hcols := dimOf_le (p.extractLsb' 83 3)
  unfold matrixListed at hlisted
  exact {
    alen := extractLsb'_congr fun k _ hk => h k (by omega) (hlisted k (by omega))
    rows := extractLsb'_congr fun k _ _ => h k (by omega) (hlisted k (by omega))
    cols := extractLsb'_congr fun k _ _ => h k (by omega) (hlisted k (by omega))
    vector := arithVector_congr hn fun i hi => h _ (by omega) (hlisted _ (by omega))
    matrix := commandMatrix_congr hrows hcols fun i hi j hj => h _ (by omega) (hlisted _ (by omega)) }

/-- A coder command whose first `n` lanes are listed reads `ALEN` and those lanes. -/
theorem AgreeOnListed.coderOperands {n : Nat} (h : AgreeOnListed p q) (hn : n ≤ 8)
    (hlisted : ∀ k < 8 + 8 * n, listedBit p k = true) :
    p.extractLsb' 4 4 = q.extractLsb' 4 4 ∧ firstLanes n (unpackCmd p).a = firstLanes n (unpackCmd q).a := by
  have hbit : ∀ k < 8 + 8 * n, p.getLsbD k = q.getLsbD k := fun k hk => h k (by omega) (hlisted k hk)
  exact ⟨extractLsb'_congr fun k _ hk => hbit k (by omega), firstLanes_congr hn hbit⟩

/-- ENCODE decodes alike: `ALEN` and both its lanes are listed in full. -/
theorem AgreeOnListed.decode_encode_eq (h : AgreeOnListed p q) (hop : p.extractLsb' 0 4 = 0x8) :
    decodePacket p = decodePacket q := by
  obtain ⟨halen, hlanes⟩ := h.coderOperands (n := 2) (by omega) fun k hk => by simp [listedBit, hop, hk]
  rw [decodePacket_encode hop, decodePacket_encode (h.op.trans hop), halen, hlanes]

/-- SYNDROME, ERRVEC, CORRECT and DECODE decode alike: `ALEN` and all five lanes are listed in full. -/
theorem AgreeOnListed.decode_word_eq (h : AgreeOnListed p q)
    (hop : p.extractLsb' 0 4 ∈ [0x9#4, 0xA#4, 0xB#4, 0xC#4]) : decodePacket p = decodePacket q := by
  simp only [List.mem_cons, List.not_mem_nil, or_false] at hop
  obtain ⟨halen, hlanes⟩ := h.coderOperands (n := 5) (by omega) fun k hk => by
    obtain hop | hop | hop | hop := hop <;> simp [listedBit, hop, hk]
  obtain hop | hop | hop | hop := hop
  · rw [decodePacket_syndrome hop, decodePacket_syndrome (h.op.trans hop), halen, hlanes]
  · rw [decodePacket_errvec hop, decodePacket_errvec (h.op.trans hop), halen, hlanes]
  · rw [decodePacket_correct hop, decodePacket_correct (h.op.trans hop), halen, hlanes]
  · rw [decodePacket_decode hop, decodePacket_decode (h.op.trans hop), halen, hlanes]

/-- R61, R67: packets that agree on the listed bits run alike, operation by operation. -/
theorem AgreeOnListed.runCommand_eq (h : AgreeOnListed p q) (s : State) : runCommand p s = runCommand q s := by
  obtain hop | hop | hop | hop | hop | hop | hop := opcode_cases (p.extractLsb' 0 4)
  · obtain ⟨ha, hb⟩ := h.scalar (.inl hop)
    rw [runCommand_of_decode (decodePacket_add hop), runCommand_of_decode (decodePacket_add (h.op.trans hop))]
    simp only [exec, execAdd, ha, hb]
  · obtain ⟨ha, hb⟩ := h.scalar (.inr hop)
    rw [runCommand_of_decode (decodePacket_mul hop), runCommand_of_decode (decodePacket_mul (h.op.trans hop))]
    simp only [exec, execMul, ha, hb]
  · obtain ⟨halen, hrows, hcols, hvector, hmatrix⟩ := h.matrixOperands (dimOf_le _) fun _ => (listedBit_vmul hop).mpr
    rw [runCommand_of_decode (decodePacket_vmul hop), runCommand_of_decode (decodePacket_vmul (h.op.trans hop)), ← halen,
      ← hrows, ← hcols]
    simp only [exec, execVmul, hvector, hmatrix]
  · obtain ⟨halen, hrows, hcols, hvector, hmatrix⟩ := h.matrixOperands (dimOf_le _) fun _ => (listedBit_mvmul hop).mpr
    rw [runCommand_of_decode (decodePacket_mvmul hop), runCommand_of_decode (decodePacket_mvmul (h.op.trans hop)), ← halen,
      ← hrows, ← hcols]
    simp only [exec, execMvmul, hvector, hmatrix]
  · exact runCommand_congr (h.decode_encode_eq hop) s
  · exact runCommand_congr (h.decode_word_eq hop) s
  · rw [runCommand_reserved hop, runCommand_reserved (h.op ▸ hop)]

end Agree

/-! ### A length that does not conform (R131) -/

theorem not_validBits {n alen : Nat} {a : Vector Lane n} (h : alen ≠ n ∨ ∃ k : Fin n, a[k] ≠ 0 ∧ a[k] ≠ 1) :
    ¬ validBits alen a = true := by
  rw [validBits_iff]
  rintro ⟨hlen, hbits⟩
  obtain hne | ⟨k, h0, h1⟩ := h
  · exact hne hlen
  · exact (hbits k).elim h0 h1

/-- Each cause in the table of R131 is answered before anything else is looked at (R101, R136). -/
theorem exec_of_invalidInputCause {i : Instr} (h : invalidInputCause i) (s : State) : exec i s = raiseInvalidInput s := by
  cases i with
  | add | mul => exact h.elim
  | vmul | mvmul => exact if_pos h
  | encode | syndrome | errvec | correct | decode => exact if_neg (not_validBits h)

theorem runCommand_of_invalidInputCause {p : CmdPacket} {i : Instr} {s : State} (hs : s.ready)
    (hp : decodePacket p = .ok i) (hi : invalidInputCause i) :
    runCommand p s = .next { s with response := some 0x0002 } := by
  rw [runCommand_of_decode hp, exec_of_invalidInputCause hi, raiseInvalidInput_ready hs]

/-- Settles O20: packets that agree on the listed bits run alike, and a wrong length is a cause of INVALID_INPUT for each
operation that needs one. -/
theorem ignoredFieldsHaveNoEffect : Obligations.IgnoredFieldsHaveNoEffect := by
  refine ⟨fun s p q rest h => AgreeOnListed.runCommand_eq h _, fun s p rest hs h => ?_⟩
  have hs' : State.ready { s with inputs := rest } := hs
  rw [step_command]
  obtain ⟨hop, hlen⟩ | ⟨hop, hlen⟩ | ⟨hop, hlen⟩ | ⟨hop | hop | hop | hop, hlen⟩ := h
  · exact runCommand_of_invalidInputCause hs' (decodePacket_vmul hop) hlen
  · exact runCommand_of_invalidInputCause hs' (decodePacket_mvmul hop) hlen
  · exact runCommand_of_invalidInputCause hs' (decodePacket_encode hop) (.inl hlen)
  · exact runCommand_of_invalidInputCause hs' (decodePacket_syndrome hop) (.inl hlen)
  · exact runCommand_of_invalidInputCause hs' (decodePacket_errvec hop) (.inl hlen)
  · exact runCommand_of_invalidInputCause hs' (decodePacket_correct hop) (.inl hlen)
  · exact runCommand_of_invalidInputCause hs' (decodePacket_decode hop) (.inl hlen)

/-! ### The form of every response (R62, R63, R135) -/

theorem dimWf_dimOf (d : BitVec 3) : dimWf (dimOf d) = true := by
  simpa [dimOf] using d.isLt

/-- The decoder gives only instructions that have an encoding: its lengths and dimensions come from their fields (R56, R59). -/
theorem decodePacket_wf {p : CmdPacket} {i : Instr} (h : decodePacket p = .ok i) : i.wf = true := by
  have hlen (n : BitVec 4) : lenWf n.toNat = true := decide_eq_true (Nat.le_of_lt_succ n.isLt)
  unfold decodePacket decodeCmd at h
  split at h <;> cases h <;> simp only [Instr.wf, hlen, dimWf_dimOf, Bool.and_self]

/-- The response to a packet is a result of at most 8 elements with STATUS OK, or carries none. -/
theorem runCommand_is_respond (p : CmdPacket) (s : State) :
    ∃ st n, ∃ bits : BitVec n, n ≤ 8 ∧ (st ≠ .ok → n = 0) ∧ runCommand p s = respond st n bits s := by
  cases hp : decodePacket p with
  | ok i =>
    rw [runCommand_of_decode hp]
    obtain ⟨n, bits, hn, hi⟩ | ⟨st, -, -, hi⟩ := exec_is_respond i s
    · exact ⟨.ok, n, bits, hn (decodePacket_wf hp), fun h => absurd rfl h, hi⟩
    · exact ⟨st, 0, 0#0, by omega, fun _ => rfl, hi⟩
  | error e => exact ⟨.illegalOpcode, 0, 0#0, by omega, fun _ => rfl, by rw [runCommand, hp]; rfl⟩

theorem statusCode_le (st : Status) : (statusCode st).toNat ≤ 4 := by
  cases st <;> decide

theorem statusCode_eq_zero_iff (st : Status) : statusCode st = 0 ↔ st = .ok := by
  cases st <;> decide

theorem legalResponse_packResponse {st : Status} {n : Nat} (bits : BitVec n) (hn : n ≤ 8) (hst : st ≠ .ok → n = 0) :
    legalResponse (packResponse { status := st, rlen := n, rbits := bits.setWidth 8 }) := by
  have hlen : n % 16 = n := Nat.mod_eq_of_lt (by omega)
  simp only [legalResponse, rspStatus_packResponse, rspRsv1_packResponse, rspLen_packResponse, rspElem_packResponse, hlen,
    ne_eq, statusCode_eq_zero_iff]
  refine ⟨statusCode_le st, trivial, hn, fun j _ hj => ?_, hst⟩
  rw [BitVec.getLsbD_setWidth, BitVec.getLsbD_of_ge bits j hj, Bool.and_false]

/-- A legal response that reports no OK has no result bit (R135): its length is 0. -/
theorem legalResponse.no_result {r : RspPacket} (h : legalResponse r) (hst : rspStatus r ≠ 0) {j : Nat} (hj : j < 8) :
    rspElem r j = false := by
  obtain ⟨-, -, -, hbits, hlen⟩ := h
  exact hbits j hj (by rw [hlen hst]; omega)

/-- Every packet is answered in a ready state, legally, and nothing but the response changes (R63). -/
theorem runCommand_ready {s : State} (hs : s.ready) (p : CmdPacket) :
    ∃ r, runCommand p s = .next { s with response := some r } ∧ legalResponse r := by
  obtain ⟨st, n, bits, hn, hst, hrun⟩ := runCommand_is_respond p s
  exact ⟨_, hrun.trans (respond_ready hs), legalResponse_packResponse bits hn hst⟩

/-- Settles O42, by the form of the answer to a packet in a ready state. -/
theorem everyCommandAnsweredLegally : Obligations.EveryCommandAnsweredLegally := by
  intro s p rest hs
  obtain ⟨r, hrun, hlegal⟩ := runCommand_ready (s := { s with inputs := rest }) hs p
  exact ⟨r, hrun, hlegal, fun hst _ hj => hlegal.no_result hst hj⟩

end Sys2Proof.Machine
end

section
/-! PROOFS. The GF(2) arithmetic commands: the response of ADD, MUL, VMUL and MVMUL from the bits of the packet
(40_gf2_arith.md). -/

namespace Sys2Proof.Machine

/-! ### The response of a command that has a result (R62) -/

/-- In a ready state a result of at most 8 elements is answered OK: RLEN is its length, and the result bits are its elements,
those after them 0. -/
theorem respond_ok_ready {n : Nat} {s : State} (hs : s.ready) (bits : BitVec n) (hn : n ≤ 8) :
    ∃ r, respond .ok n bits s = .next { s with response := some r } ∧
      rspStatus r = 0 ∧ rspRsv1 r = false ∧ rspLen r = n ∧ ∀ j, rspElem r j = bits.getLsbD j := by
  refine ⟨_, respond_ready hs, rspStatus_packResponse _, rspRsv1_packResponse _, ?_, fun j => ?_⟩
  · rw [rspLen_packResponse]
    exact Nat.mod_eq_of_lt (Nat.lt_of_le_of_lt hn (by decide))
  · rw [rspElem_packResponse, BitVec.getLsbD_setWidth, Bool.and_eq_right_iff_imp, decide_eq_true_eq]
    exact fun hbit => (BitVec.lt_of_getLsbD hbit).trans_le hn

/-- The 16 bits of the response with one Bit as its result. -/
theorem respond_bit_ready {s : State} (hs : s.ready) (b : Bool) :
    respond .ok 1 (BitVec.ofBool b) s = .next { s with response := some (if b then 0x0110 else 0x0010) } := by
  rw [respond_ready hs]
  cases b <;> rfl

/-! ### ADD and MUL -/

/-- Settles O21: the sum of two Bits is 0 where they are equal and 1 where they differ (R81). -/
theorem addAnswersXor : Obligations.AddAnswersXor := by
  refine ⟨fun p hop => decodePacket_add hop, fun a b s hs => (respond_bit_ready hs _).trans ?_⟩
  have hsum : (gfAdd (bit0 a) (bit0 b) = true) ↔ ¬ a.getLsbD 0 = b.getLsbD 0 := by simp [gfAdd, bit0]
  simp only [hsum, ite_not]

/-- Settles O22: the product of two Bits is 1 where both are 1 and 0 otherwise (R82). -/
theorem mulAnswersAnd : Obligations.MulAnswersAnd := by
  refine ⟨fun p hop => decodePacket_mul hop, fun a b s hs => (respond_bit_ready hs _).trans ?_⟩
  simp only [gfMul, bit0, Bool.and_eq_true]

/-! ### VMUL and MVMUL -/

section
variable {alen rows cols : Nat}

/-- With a vector as long as the matrix has rows, VMUL answers the product (R85). -/
theorem exec_vmul_conforming (h : alen = rows) (a : Vector Lane 8) (m : Vector (BitVec 8) 8) (s : State) :
    exec (.vmul alen a rows cols m) s =
      respond .ok cols (vxm (arithVector rows a) (commandMatrix rows cols m)) s := if_neg (not_not_intro h)

/-- With a vector as long as the matrix has columns, MVMUL answers the product (R86). -/
theorem exec_mvmul_conforming (h : alen = cols) (a : Vector Lane 8) (m : Vector (BitVec 8) 8) (s : State) :
    exec (.mvmul alen a rows cols m) s =
      respond .ok rows (mxv (commandMatrix rows cols m) (arithVector cols a)) s := if_neg (not_not_intro h)

/-- Element `j` of the product that VMUL forms, in the bits of the packet (R83); there is none at `j ≥ cols`. -/
theorem vxm_unpackCmd_bit (p : CmdPacket) (hrows : rows ≤ 8) (hcols : cols ≤ 8) (j : Nat) :
    (vxm (arithVector rows (unpackCmd p).a) (commandMatrix rows cols (unpackCmd p).mrow)).getLsbD j =
      (decide (j < cols) && xorAll rows fun i => p.getLsbD (8 + 8 * i) && p.getLsbD (88 + 8 * i + j)) := by
  by_cases hj : j < cols
  · rw [vxm_bit _ _ hj, decide_eq_true hj, Bool.true_and]
    refine xorAll_congr fun i hi => ?_
    rw [arithVector_unpackCmd_bit p hrows hi, cell_commandMatrix_unpackCmd p hrows hcols hi hj]
  · rw [BitVec.getLsbD_of_ge _ _ (Nat.le_of_not_lt hj), decide_eq_false hj, Bool.false_and]

/-- Element `i` of the product that MVMUL forms, in the bits of the packet (R84); there is none at `i ≥ rows`. -/
theorem mxv_unpackCmd_bit (p : CmdPacket) (hrows : rows ≤ 8) (hcols : cols ≤ 8) (i : Nat) :
    (mxv (commandMatrix rows cols (unpackCmd p).mrow) (arithVector cols (unpackCmd p).a)).getLsbD i =
      (decide (i < rows) && xorAll cols fun j => p.getLsbD (88 + 8 * i + j) && p.getLsbD (8 + 8 * j)) := by
  by_cases hi : i < rows
  · rw [mxv_bit _ _ hi, decide_eq_true hi, Bool.true_and]
    refine xorAll_congr fun j hj => ?_
    rw [arithVector_unpackCmd_bit p hcols hj, cell_commandMatrix_unpackCmd p hrows hcols hi hj]
  · rw [BitVec.getLsbD_of_ge _ _ (Nat.le_of_not_lt hi), decide_eq_false hi, Bool.false_and]

end

/-- Settles O23: a conforming packet is answered with the product, whose elements are sums of the packet's bits; another
length is a cause of INVALID_INPUT (R131). -/
theorem vmulAnswersProduct : Obligations.VmulAnswersProduct := by
  intro s p rest hs hop rows cols
  have hs' : State.ready { s with inputs := rest } := hs
  rw [step_command]
  refine ⟨fun hlen => ?_, fun hlen => runCommand_of_invalidInputCause hs' (decodePacket_vmul hop) hlen⟩
  rw [runCommand_of_decode (decodePacket_vmul hop), exec_vmul_conforming (show _ = dimOf (p.extractLsb' 80 3) from hlen)]
  obtain ⟨r, hrun, hstatus, hrsv, hrlen, helem⟩ := respond_ok_ready hs' _ (dimOf_le (p.extractLsb' 83 3))
  exact ⟨r, hrun, hstatus, hrsv, hrlen, fun j _ =>
    (helem j).trans (vxm_unpackCmd_bit p (dimOf_le _) (dimOf_le _) j)⟩

/-- Settles O24: as for VMUL, with the product of R84 and the column count as the conforming length (R86, R131). -/
theorem mvmulAnswersProduct : Obligations.MvmulAnswersProduct := by
  intro s p rest hs hop rows cols
  have hs' : State.ready { s with inputs := rest } := hs
  rw [step_command]
  refine ⟨fun hlen => ?_, fun hlen => runCommand_of_invalidInputCause hs' (decodePacket_mvmul hop) hlen⟩
  rw [runCommand_of_decode (decodePacket_mvmul hop), exec_mvmul_conforming (show _ = dimOf (p.extractLsb' 83 3) from hlen)]
  obtain ⟨r, hrun, hstatus, hrsv, hrlen, helem⟩ := respond_ok_ready hs' _ (dimOf_le (p.extractLsb' 80 3))
  exact ⟨r, hrun, hstatus, hrsv, hrlen, fun i _ =>
    (helem i).trans (mxv_unpackCmd_bit p (dimOf_le _) (dimOf_le _) i)⟩

end Sys2Proof.Machine
end

section
/-! PROOFS. The linear coder: the response of ENCODE, SYNDROME, ERRVEC, CORRECT and DECODE to every operand
(41_linear_coder.md). -/

namespace Sys2Proof.Machine

/-! ### The operand in the packet (R57, R68) -/

/-- A coder operand's lanes are the first lanes of the packet. -/
theorem firstLanes_unpackCmd (p : CmdPacket) {n : Nat} (hn : n ≤ 8) :
    firstLanes n (unpackCmd p).a = Vector.ofFn fun i : Fin n => p.extractLsb' (8 + 8 * i) 8 := by
  ext i hi : 1
  simp only [firstLanes, Vector.getElem_ofFn]
  exact unpackCmd_lane p (hi.trans_le hn)

theorem firstLanes_two_unpackCmd (p : CmdPacket) :
    firstLanes 2 (unpackCmd p).a = #v[p.extractLsb' 8 8, p.extractLsb' 16 8] :=
  firstLanes_unpackCmd p (by omega)

theorem firstLanes_five_unpackCmd (p : CmdPacket) :
    firstLanes 5 (unpackCmd p).a =
      #v[p.extractLsb' 8 8, p.extractLsb' 16 8, p.extractLsb' 24 8, p.extractLsb' 32 8, p.extractLsb' 40 8] :=
  firstLanes_unpackCmd p (by omega)

/-! ### The packets that a coder command answers with -/

/-- The bits of an OK packet: RLEN at [7:4], the result from bit 8 on, and nothing in STATUS and `RSV1` (R62). -/
theorem okPacket_bit {n k : Nat} (bits : BitVec n) (hn : n ≤ 8) (hk : k < 16) :
    (okPacket bits).getLsbD k = if k < 8 then decide (4 ≤ k) && n.testBit (k - 4) else bits.getLsbD (k - 8) := by
  have hrlen : (BitVec.ofNat 16 (16 * n)).getLsbD k = (decide (4 ≤ k) && n.testBit (k - 4)) := by
    rw [BitVec.getLsbD_ofNat, decide_eq_true hk, Bool.true_and]
    exact Nat.testBit_two_pow_mul (i := 4)
  rw [okPacket, BitVec.getLsbD_or, hrlen, BitVec.getLsbD_shiftLeft, BitVec.getLsbD_setWidth]
  split
  case isTrue hlow => simp [hlow]
  case isFalse hlow =>
    have hrlen_end : n.testBit (k - 4) = false :=
      Nat.testBit_lt_two_pow ((show n < 2 ^ 4 by omega).trans_le (Nat.pow_le_pow_right (by omega) (by omega)))
    simp [hrlen_end, hk, hlow, show k - 8 < 16 by omega]

/-- A result of at most 8 elements is packed as an OK packet. -/
theorem packResponse_ok {n : Nat} (bits : BitVec n) (hn : n ≤ 8) :
    packResponse { status := .ok, rlen := n, rbits := bits.setWidth 8 } = okPacket bits := by
  refine BitVec.eq_of_getLsbD_eq fun k hk => ?_
  rw [packResponse_bit _ hk, okPacket_bit bits hn hk, rspBit]
  split
  case isTrue hstatus => simp [statusCode, show k < 8 by omega, show ¬ 4 ≤ k by omega]
  split
  case isTrue hrsv => simp [show k < 8 by omega, show ¬ 4 ≤ k by omega]
  split
  case isTrue hrlen => rw [BitVec.getLsbD_ofNat, decide_eq_true (by omega), decide_eq_true (by omega)]
  case isFalse hbits => rw [BitVec.getLsbD_setWidth, decide_eq_true (by omega), Bool.true_and]

section
variable {s : State}

theorem respond_okPacket {n : Nat} (hs : s.ready) (bits : BitVec n) (hn : n ≤ 8) :
    respond .ok n bits s = .next { s with response := some (okPacket bits) } := by
  rw [respond_ready hs, packResponse_ok bits hn]

/-- An operand of another length, or with an element that is no Bit, is answered with INVALID_INPUT by each
command of which it is a cause (R100, R101). -/
theorem exec_invalid {n alen : Nat} {a : Vector Lane n} {i : Instr} (hs : s.ready) (ha : ¬ (alen = n ∧ binary a))
    (hi : (alen ≠ n ∨ ∃ k : Fin n, a[k] ≠ 0 ∧ a[k] ≠ 1) → invalidInputCause i) :
    exec i s = .next { s with response := some 0x0002 } := by
  have hcause : alen ≠ n ∨ ∃ k : Fin n, a[k] ≠ 0 ∧ a[k] ≠ 1 := by
    simpa only [binary, not_and_or, not_forall, not_or] using ha
  rw [exec_of_invalidInputCause (hi hcause), raiseInvalidInput_ready hs]

end

/-! ### The meanings, for a valid operand -/

section
variable {s : State} {alen : Nat} {r : Vector Lane 5}

theorem exec_encode_valid {m : Vector Lane 2} (hlen : alen = 2) (hm : binary m) :
    exec (.encode alen m) s = respond .ok 5 (vxm (coderVector m) s.gRom) s := by
  rw [← readG_eq]
  exact if_pos ((validBits_iff m).mpr ⟨hlen, hm⟩)

theorem exec_syndrome_valid (hlen : alen = 5) (hr : binary r) :
    exec (.syndrome alen r) s = respond .ok 3 (mxv s.hRom (coderVector r)) s := by
  rw [← syndromeOf_eq]
  exact if_pos ((validBits_iff r).mpr ⟨hlen, hr⟩)

theorem exec_errvec_valid (hlen : alen = 5) (hr : binary r) {entry : SynEntry} (hentry : lookup s (coderVector r) = entry) :
    exec (.errvec alen r) s = if entry.v then respond .ok 5 entry.e s else raise .absent s := by
  subst hentry
  exact if_pos ((validBits_iff r).mpr ⟨hlen, hr⟩)

theorem exec_correct_valid (hlen : alen = 5) (hr : binary r) {entry : SynEntry} (hentry : lookup s (coderVector r) = entry) :
    exec (.correct alen r) s = if entry.v then respond .ok 5 (coderVector r ^^^ entry.e) s else raiseUncorrectable s := by
  subst hentry
  exact if_pos ((validBits_iff r).mpr ⟨hlen, hr⟩)

theorem exec_decode_valid (hlen : alen = 5) (hr : binary r) :
    exec (.decode alen r) s = respond .ok 2 ((coderVector r).setWidth 2) s :=
  if_pos ((validBits_iff r).mpr ⟨hlen, hr⟩)

end

/-! ### ENCODE and DECODE -/

/-- In a run a valid message is answered with its product with G (R102). -/
theorem exec_encode_ready {s : State} {alen : Nat} {m : Vector Lane 2} (hinv : s.Inv) (hs : s.ready) (hlen : alen = 2)
    (hm : binary m) :
    exec (.encode alen m) s = .next { s with response := some (okPacket (vxm (coderVector m) Config.gMatrix)) } := by
  obtain ⟨hG, -⟩ := hinv
  rw [← hG]
  exact (exec_encode_valid hlen hm).trans (respond_okPacket hs _ (by omega))

theorem eq_two_lanes {m : Vector Lane 2} {a b : Lane} (ha : m[0] = a) (hb : m[1] = b) : m = #v[a, b] := by
  subst ha hb
  ext i hi : 1
  match i, hi with
  | 0, _ => rfl
  | 1, _ => rfl

/-- Settles O28: the four valid messages one by one; every other operand is a cause of INVALID_INPUT (R131). -/
theorem encodeAnswersCodeword : Obligations.EncodeAnswersCodeword := by
  refine ⟨fun p hop => by rw [decodePacket_encode hop, firstLanes_two_unpackCmd], fun alen m s hinv hs => ?_⟩
  refine ⟨fun hlen h0 h1 => ?_, fun hlen h0 h1 => ?_, fun hlen h0 h1 => ?_, fun hlen h0 h1 => ?_,
    fun h => exec_invalid hs h id⟩
  all_goals
    rw [eq_two_lanes h0 h1]
    exact exec_encode_ready hinv hs hlen (by decide)

/-- The first two elements of a word, of which the other three are dropped (R106). -/
theorem setWidth_two_coderVector (w : Vector Lane 5) : (coderVector w).setWidth 2 = coderVector #v[w[0], w[1]] := by
  refine BitVec.eq_of_getLsbD_eq fun i hi => ?_
  rw [BitVec.getLsbD_setWidth, decide_eq_true hi, Bool.true_and, coderVector_bit w (by omega), coderVector_bit _ hi]
  match i, hi with
  | 0, _ => rfl
  | 1, _ => rfl

/-- A valid word, codeword or not, is answered with its first two elements, whatever the tables hold (R106). -/
theorem exec_decode_ready {s : State} {alen : Nat} {w : Vector Lane 5} (hs : s.ready) (hlen : alen = 5) (hw : binary w) :
    exec (.decode alen w) s = .next { s with response := some (okPacket (coderVector #v[w[0], w[1]])) } := by
  rw [exec_decode_valid hlen hw, respond_okPacket hs _ (by omega), setWidth_two_coderVector]

/-- Settles O32: the four values of the first two elements one by one; every other operand is a cause of INVALID_INPUT
(R131). -/
theorem decodeAnswersPrefix : Obligations.DecodeAnswersPrefix := by
  refine ⟨fun p hop => by rw [decodePacket_decode hop, firstLanes_five_unpackCmd], fun alen w s hs => ?_⟩
  refine ⟨fun hlen hw h0 h1 => ?_, fun hlen hw h0 h1 => ?_, fun hlen hw h0 h1 => ?_, fun hlen hw h0 h1 => ?_,
    fun h => exec_invalid hs h id⟩
  all_goals
    rw [exec_decode_ready hs hlen hw, h0, h1]
    rfl

/-! ### SYNDROME -/

/-- The three parities that H forms (R103). -/
theorem mxv_hMatrix_bit : ∀ v : BitVec 5,
    (mxv Config.hMatrix v).getLsbD 0 = (v.getLsbD 0 ^^ v.getLsbD 2) ∧
    (mxv Config.hMatrix v).getLsbD 1 = (v.getLsbD 0 ^^ v.getLsbD 1 ^^ v.getLsbD 3) ∧
    (mxv Config.hMatrix v).getLsbD 2 = (v.getLsbD 0 ^^ v.getLsbD 1 ^^ v.getLsbD 4) := by decide +kernel

theorem bit0_xor (x y : Lane) : bit0 (x ^^^ y) = (bit0 x ^^ bit0 y) := BitVec.getLsbD_xor

theorem xor_is_bit {x y : Lane} (hx : x = 0 ∨ x = 1) (hy : y = 0 ∨ y = 1) : x ^^^ y = 0 ∨ x ^^^ y = 1 := by
  obtain rfl | rfl := hx <;> obtain rfl | rfl := hy <;> decide

theorem bit0_of_is_bit {x : Lane} (hx : x = 0 ∨ x = 1) : bit0 x = decide (x = 1) := by
  obtain rfl | rfl := hx <;> rfl

/-- The parities of a binary word, in its lanes. -/
theorem mxv_hMatrix_coderVector_bit {r : Vector Lane 5} (hr : binary r) :
    (mxv Config.hMatrix (coderVector r)).getLsbD 0 = decide (r[0] ^^^ r[2] = 1) ∧
    (mxv Config.hMatrix (coderVector r)).getLsbD 1 = decide (r[0] ^^^ r[1] ^^^ r[3] = 1) ∧
    (mxv Config.hMatrix (coderVector r)).getLsbD 2 = decide (r[0] ^^^ r[1] ^^^ r[4] = 1) := by
  obtain ⟨h0, h1, h2⟩ := mxv_hMatrix_bit (coderVector r)
  have h01 := xor_is_bit (hr 0) (hr 1)
  rw [h0, h1, h2, coderVector_bit r (i := 0) (by omega), coderVector_bit r (i := 1) (by omega),
    coderVector_bit r (i := 2) (by omega), coderVector_bit r (i := 3) (by omega), coderVector_bit r (i := 4) (by omega)]
  simp only [← bit0_xor]
  exact ⟨bit0_of_is_bit (xor_is_bit (hr 0) (hr 2)), bit0_of_is_bit (xor_is_bit h01 (hr 3)),
    bit0_of_is_bit (xor_is_bit h01 (hr 4))⟩

/-- Settles O29: the result is the product with H, whose elements are the parities of the lanes. -/
theorem syndromeAnswersParities : Obligations.SyndromeAnswersParities := by
  refine ⟨fun p hop => by rw [decodePacket_syndrome hop, firstLanes_five_unpackCmd],
    fun alen r s hinv hs => ⟨fun hlen hr => ?_, fun h => exec_invalid hs h id⟩⟩
  obtain ⟨-, hH, -⟩ := hinv
  obtain ⟨p, hrun, hstatus, hrsv, hrlen, helem⟩ := respond_ok_ready hs (mxv s.hRom (coderVector r)) (by omega)
  rw [hH] at helem
  obtain ⟨h0, h1, h2⟩ := mxv_hMatrix_coderVector_bit hr
  exact ⟨p, (exec_syndrome_valid hlen hr).trans hrun, hstatus, hrsv, hrlen, (helem 0).trans h0, (helem 1).trans h1,
    (helem 2).trans h2, fun j _ hj => (helem j).trans (BitVec.getLsbD_of_ge _ _ hj)⟩

/-! ### The syndrome of a word is that of its error -/

theorem xorAll_xor (n : Nat) (f g : Nat → Bool) : (xorAll n fun i => f i ^^ g i) = (xorAll n f ^^ xorAll n g) := by
  induction n with
  | zero => rfl
  | succ n ih =>
    simp only [xorAll_succ, ih, Bool.xor_assoc, Bool.xor_left_comm]

/-- The product of a matrix and a vector is linear in the vector (R87). -/
theorem mxv_xor {r c : Nat} (m : BitMatrix r c) (u w : BitVec c) : mxv m (u ^^^ w) = mxv m u ^^^ mxv m w := by
  refine BitVec.eq_of_getLsbD_eq fun i hi => ?_
  simp only [BitVec.getLsbD_xor, mxv_bit _ _ hi, Bool.and_xor_distrib_left, xorAll_xor]

/-- The codewords have the syndrome zero (R26). -/
theorem mxv_hMatrix_codeword : ∀ c ∈ codewords, mxv Config.hMatrix c = 0 := by decide

/-- A word that differs from a codeword by `e` has the syndrome of `e`. -/
theorem mxv_hMatrix_of_error {x e : BitVec 5} (h : x ^^^ e ∈ codewords) : mxv Config.hMatrix x = mxv Config.hMatrix e := by
  have hsum := mxv_hMatrix_codeword _ h
  rwa [mxv_xor, BitVec.ofNat_eq_ofNat, BitVec.xor_eq_zero_iff] at hsum

/-- The table holds each error of weight at most 1 at its syndrome (R27). -/
theorem synImage_get_error : ∀ e : BitVec 5, weight e ≤ 1 →
    synImage.get (key (mxv Config.hMatrix e)) = ⟨true, e⟩ := by decide +kernel

/-- The syndromes [1,0,1] and [1,1,0] are unmapped (R28). -/
theorem synImage_get_unmapped {t : BitVec 3} (ht : t = 0b101 ∨ t = 0b011) : synImage.get (key t) = ⟨false, 0⟩ := by
  obtain rfl | rfl := ht <;> rfl

section
variable {s : State} {x : BitVec 5}

/-- In a run the entry of a received word is read from the image of R27. -/
theorem lookup_lanesOf (hinv : s.Inv) (hs : s.ready) :
    lookup s (coderVector (lanesOf x)) = synImage.get (key (mxv Config.hMatrix x)) := by
  obtain ⟨-, hH, hsyn, -⟩ := hinv
  rw [lookup_eq, hH, hsyn hs.1, coderVector_lanesOf]

theorem lookup_of_error {e : BitVec 5} (hinv : s.Inv) (hs : s.ready) (he : weight e ≤ 1) (hx : x ^^^ e ∈ codewords) :
    lookup s (coderVector (lanesOf x)) = ⟨true, e⟩ := by
  rw [lookup_lanesOf hinv hs, mxv_hMatrix_of_error hx, synImage_get_error e he]

theorem lookup_of_unmapped (hinv : s.Inv) (hs : s.ready)
    (hx : mxv Config.hMatrix x = 0b101 ∨ mxv Config.hMatrix x = 0b011) :
    lookup s (coderVector (lanesOf x)) = ⟨false, 0⟩ := by
  rw [lookup_lanesOf hinv hs, synImage_get_unmapped hx]

end

/-! ### ERRVEC and CORRECT -/

/-- Settles O30: the table's entry is the error of weight at most 1, or unmapped (R104). -/
theorem errvecAnswersErrorVector : Obligations.ErrvecAnswersErrorVector := by
  refine ⟨fun p hop => by rw [decodePacket_errvec hop, firstLanes_five_unpackCmd], fun alen r s hinv hs => ?_⟩
  refine ⟨fun x e hlen hr he hx => ?_, fun x hlen hr hx => ?_, fun h => exec_invalid hs h id⟩
  · subst hr
    exact (exec_errvec_valid hlen (binary_lanesOf x) (lookup_of_error hinv hs he hx)).trans
      (respond_okPacket hs e (by omega))
  · subst hr
    exact (exec_errvec_valid hlen (binary_lanesOf x) (lookup_of_unmapped hinv hs hx)).trans (raise_ready hs)

/-- Settles O31: as for ERRVEC, with the entry's error added to the word (R105). -/
theorem correctAnswersCodeword : Obligations.CorrectAnswersCodeword := by
  refine ⟨fun p hop => by rw [decodePacket_correct hop, firstLanes_five_unpackCmd], fun alen r s hinv hs => ?_⟩
  refine ⟨fun x e hlen hr he hx => ?_, fun x hlen hr hx => ?_, fun h => exec_invalid hs h id⟩
  · subst hr
    refine (exec_correct_valid hlen (binary_lanesOf x) (lookup_of_error hinv hs he hx)).trans ?_
    rw [coderVector_lanesOf]
    exact respond_okPacket hs (x ^^^ e) (by omega)
  · subst hr
    exact (exec_correct_valid hlen (binary_lanesOf x) (lookup_of_unmapped hinv hs hx)).trans (raiseUncorrectable_ready hs)

end Sys2Proof.Machine
end

section
/-! PROOFS. Errors and exceptions: which commands answer which STATUS, and which condition a response reports
(60_exceptions.md). -/

namespace Sys2Proof.Machine

/-! ### Reserved opcodes (R133) -/

/-- Settles O19: a reserved opcode selects no operation, and the error is raised in a ready state. -/
theorem reservedOpcodeAnswered : Obligations.ReservedOpcodeAnswered := by
  intro s p rest hs hop
  rw [step_command, runCommand_reserved hop]
  exact raiseIllegalOpcode_ready hs

/-! ### The cause of each STATUS other than OK -/

section
variable {n alen : Nat} {s : State} {i : Instr} {st : Status} {p : RspPacket}

/-- What makes an instruction answer each STATUS other than OK, in any state (R131, R132, R134). -/
def statusCause (s : State) (i : Instr) : Status → Prop
  | .ok => False
  | .absent => ∃ x : BitVec 5, i = .errvec 5 (lanesOf x) ∧ (lookup s x).v = false
  | .invalidInput => invalidInputCause i
  | .uncorrectable => ∃ x : BitVec 5, i = .correct 5 (lanesOf x) ∧ (lookup s x).v = false
  | .illegalOpcode => False

/-- The lanes of a valid operand are those that present the Bit vector read from them. -/
theorem lanesOf_coderVector {a : Vector Lane n} (ha : binary a) : lanesOf (coderVector a) = a := by
  ext k hk : 1
  rw [lanesOf, Vector.getElem_ofFn, Fin.getElem_fin, ← BitVec.getLsbD_eq_getElem, coderVector_bit a hk]
  obtain h | h : a[k] = 0 ∨ a[k] = 1 := ha ⟨k, hk⟩ <;> rw [h] <;> rfl

/-- An operand is valid, or gives one of the two causes that R131 lists for a coder command. -/
theorem valid_or_invalid (alen : Nat) (a : Vector Lane n) :
    (alen = n ∧ ∃ x, a = lanesOf x) ∨ (alen ≠ n ∨ ∃ k : Fin n, a[k] ≠ 0 ∧ a[k] ≠ 1) := by
  by_cases h : alen ≠ n ∨ ∃ k : Fin n, a[k] ≠ 0 ∧ a[k] ≠ 1
  · exact .inr h
  · simp only [not_or, not_exists, not_and_or, not_not] at h
    exact .inl ⟨h.1, _, (lanesOf_coderVector h.2).symm⟩

theorem exec_errvec_lanesOf (s : State) (x : BitVec 5) :
    exec (.errvec 5 (lanesOf x)) s = if (lookup s x).v then respond .ok 5 (lookup s x).e s else raise .absent s :=
  exec_errvec_valid rfl (binary_lanesOf x) (by rw [coderVector_lanesOf])

theorem exec_correct_lanesOf (s : State) (x : BitVec 5) :
    exec (.correct 5 (lanesOf x)) s =
      if (lookup s x).v then respond .ok 5 (x ^^^ (lookup s x).e) s else raiseUncorrectable s := by
  rw [exec_correct_valid rfl (binary_lanesOf x) rfl, coderVector_lanesOf]

/-- Every instruction ends in one response, whose STATUS is OK or has its cause. -/
theorem exec_status (i : Instr) (s : State) :
    ∃ st n, ∃ bits : BitVec n, exec i s = respond st n bits s ∧ (st = .ok ∨ statusCause s i st) := by
  by_cases hcause : invalidInputCause i
  · exact ⟨.invalidInput, 0, 0#0, exec_of_invalidInputCause hcause s, .inr hcause⟩
  cases i with
  | add | mul => exact ⟨.ok, _, _, rfl, .inl rfl⟩
  | vmul | mvmul => exact ⟨.ok, _, _, if_neg hcause, .inl rfl⟩
  | encode alen m =>
    obtain ⟨hlen, x, rfl⟩ := (valid_or_invalid alen m).resolve_right hcause
    exact ⟨.ok, _, _, exec_encode_valid hlen (binary_lanesOf x), .inl rfl⟩
  | syndrome alen r =>
    obtain ⟨hlen, x, rfl⟩ := (valid_or_invalid alen r).resolve_right hcause
    exact ⟨.ok, _, _, exec_syndrome_valid hlen (binary_lanesOf x), .inl rfl⟩
  | decode alen c =>
    obtain ⟨hlen, x, rfl⟩ := (valid_or_invalid alen c).resolve_right hcause
    exact ⟨.ok, _, _, exec_decode_valid hlen (binary_lanesOf x), .inl rfl⟩
  | errvec alen r =>
    obtain ⟨rfl, x, rfl⟩ := (valid_or_invalid alen r).resolve_right hcause
    rw [exec_errvec_lanesOf]
    split
    case isTrue => exact ⟨.ok, _, _, rfl, .inl rfl⟩
    case isFalse hv => exact ⟨.absent, 0, 0#0, rfl, .inr ⟨x, rfl, eq_false_of_ne_true hv⟩⟩
  | correct alen r =>
    obtain ⟨rfl, x, rfl⟩ := (valid_or_invalid alen r).resolve_right hcause
    rw [exec_correct_lanesOf]
    split
    case isTrue => exact ⟨.ok, _, _, rfl, .inl rfl⟩
    case isFalse hv => exact ⟨.uncorrectable, 0, 0#0, rfl, .inr ⟨x, rfl, eq_false_of_ne_true hv⟩⟩

/-- Each cause is answered with its STATUS alone. -/
theorem exec_of_statusCause (h : statusCause s i st) : exec i s = raise st s := by
  cases st with
  | ok | illegalOpcode => exact h.elim
  | invalidInput => exact exec_of_invalidInputCause h s
  | absent =>
    obtain ⟨x, rfl, hv⟩ := h
    rw [exec_errvec_lanesOf, hv]
    rfl
  | uncorrectable =>
    obtain ⟨x, rfl, hv⟩ := h
    rw [exec_correct_lanesOf, hv]
    rfl

theorem statusCode_injective {st st' : Status} (h : statusCode st = statusCode st') : st = st' := by
  cases st <;> cases st' <;> revert h <;> decide

/-- The STATUS of the answer to an instruction is OK or has its cause. -/
theorem rspStatus_of_exec (h : exec i s = .next { s with response := some p }) :
    ∃ st, rspStatus p = statusCode st ∧ (st = .ok ∨ statusCause s i st) := by
  obtain ⟨st, n, bits, hexec, hst⟩ := exec_status i s
  obtain ⟨-, ht⟩ := respond_next_iff.mp (hexec.symm.trans h)
  obtain rfl : p = _ := Option.some.inj (congrArg State.response ht)
  exact ⟨st, rspStatus_packResponse _, hst⟩

/-- A STATUS other than OK is answered exactly when its cause holds, and nothing stands beside it in the packet (R135). -/
theorem answer_iff (h : exec i s = .next { s with response := some p }) (hst : st ≠ .ok) :
    (rspStatus p = statusCode st ↔ p = (statusCode st).setWidth 16) ∧
    (p = (statusCode st).setWidth 16 ↔ statusCause s i st) := by
  have hcause (hp : rspStatus p = statusCode st) : statusCause s i st := by
    obtain ⟨st', hp', hok | hcause⟩ := rspStatus_of_exec h
    · exact absurd ((statusCode_injective (hp.symm.trans hp')).trans hok) hst
    · rwa [statusCode_injective (hp.symm.trans hp')]
  have hpacket (hc : statusCause s i st) : p = (statusCode st).setWidth 16 := by
    have hraise := h.symm.trans ((exec_of_statusCause hc).trans (raise_ready (exec_next h).1))
    simpa using hraise
  have hstatus (hp : p = (statusCode st).setWidth 16) : rspStatus p = statusCode st := by
    rw [hp, ← packResponse_no_result, rspStatus_packResponse]
  exact ⟨⟨hpacket ∘ hcause, hstatus⟩, ⟨hcause ∘ hstatus, hpacket⟩⟩

end

/-- Settles O39: the cause of STATUS 2 is the table of R131. -/
theorem invalidInputCauses : Obligations.InvalidInputCauses :=
  fun _ _ _ h => answer_iff (st := .invalidInput) h (by decide)

/-! ### Unmapped syndromes (R132, R134) -/

/-- The word's syndrome is [1,0,1] or [1,1,0], the two that no entry of `SYN_ROM` maps (R28). -/
abbrev HasUnmappedSyndrome (x : BitVec 5) : Prop := mxv Config.hMatrix x = 0b101 ∨ mxv Config.hMatrix x = 0b011

/-- The entries that the image of R27 leaves unmapped. -/
theorem synImage_unmapped_iff : ∀ t : BitVec 3, (synImage.get (key t)).v = false ↔ t = 0b101 ∨ t = 0b011 := by
  decide +kernel

theorem lookup_unmapped_iff {s : State} {x : BitVec 5} (hinv : s.Inv) (hs : s.ready) :
    (lookup s x).v = false ↔ HasUnmappedSyndrome x := by
  rw [← coderVector_lanesOf x, lookup_lanesOf hinv hs, synImage_unmapped_iff, coderVector_lanesOf]

/-- Settles O40: the causes of STATUS 3 and 1, with the unmapped entries read off the image of R27; a codeword's syndrome
is zero. -/
theorem unmappedSyndromeStatus : Obligations.UnmappedSyndromeStatus := by
  intro i s p hinv h
  obtain ⟨hs, -⟩ := exec_next h
  obtain ⟨hstatus3, hcause3⟩ := answer_iff (st := .uncorrectable) h (by decide)
  obtain ⟨hstatus1, hcause1⟩ := answer_iff (st := .absent) h (by decide)
  simp only [statusCause, lookup_unmapped_iff hinv hs] at hcause3 hcause1
  refine ⟨hstatus3, hstatus1, hcause3, hcause1, fun c hc => ?_⟩
  rw [mxv_hMatrix_codeword c hc]
  decide

/-! ### The order of the conditions (R136) -/

section
variable {p : CmdPacket} {i : Instr} {n : Nat}

/-- A decoded packet has the opcode of its instruction (R65). -/
theorem op_of_decode (hp : decodePacket p = .ok i) : p.extractLsb' 0 4 = opcodeOf i := by
  unfold decodePacket decodeCmd at hp
  split at hp <;> cases hp <;> exact BitVec.eq_of_toNat_eq ‹_›

theorem not_reserved_of_decode (hp : decodePacket p = .ok i) :
    p.extractLsb' 0 4 ∉ [0x0#4, 0x5#4, 0x6#4, 0x7#4, 0xD#4, 0xE#4, 0xF#4] := fun hres =>
  nomatch hp.symm.trans (decodePacket_reserved hres)

/-- Every other opcode selects an instruction (R65, R66). -/
theorem exists_decode (h : p.extractLsb' 0 4 ∉ [0x0#4, 0x5#4, 0x6#4, 0x7#4, 0xD#4, 0xE#4, 0xF#4]) :
    ∃ i, decodePacket p = .ok i := by
  obtain hop | hop | hop | hop | hop | hop | hop := opcode_cases (p.extractLsb' 0 4)
  · exact ⟨_, decodePacket_add hop⟩
  · exact ⟨_, decodePacket_mul hop⟩
  · exact ⟨_, decodePacket_vmul hop⟩
  · exact ⟨_, decodePacket_mvmul hop⟩
  · exact ⟨_, decodePacket_encode hop⟩
  · simp only [List.mem_cons, List.not_mem_nil, or_false] at hop
    obtain hop | hop | hop | hop := hop
    · exact ⟨_, decodePacket_syndrome hop⟩
    · exact ⟨_, decodePacket_errvec hop⟩
    · exact ⟨_, decodePacket_correct hop⟩
    · exact ⟨_, decodePacket_decode hop⟩
  · exact absurd hop h

/-- R136's second condition: the operation needs a length that `ALEN` does not give. -/
abbrev WrongLength (p : CmdPacket) : Prop := neededLen p ≠ none ∧ neededLen p ≠ some (p.extractLsb' 4 4).toNat

/-- R136's third condition: a lane that the operation checks is not 0 or 1. -/
abbrev NonBitLane (p : CmdPacket) : Prop :=
  ∃ i < checkedLanes p, p.extractLsb' (8 + 8 * i) 8 ≠ 0 ∧ p.extractLsb' (8 + 8 * i) 8 ≠ 1

/-- VMUL and MVMUL check the length of their vector and no lane (R85, R86). -/
theorem operandError_iff_of_matrix (hneeded : neededLen p = some n) (hop : (p.extractLsb' 0 4).toNat < 8) :
    WrongLength p ∨ NonBitLane p ↔ (p.extractLsb' 4 4).toNat ≠ n := by
  have hchecked : checkedLanes p = 0 := if_neg (Nat.not_le.mpr hop)
  simp [WrongLength, NonBitLane, hneeded, hchecked, eq_comm]

/-- A coder command checks the length of its operand and each of its lanes (R100). -/
theorem operandError_iff_of_coder (hneeded : neededLen p = some n) (hop : 8 ≤ (p.extractLsb' 0 4).toNat) (hn : n ≤ 8) :
    WrongLength p ∨ NonBitLane p ↔ (p.extractLsb' 4 4).toNat ≠ n ∨
      ∃ k : Fin n, (firstLanes n (unpackCmd p).a)[k] ≠ 0 ∧ (firstLanes n (unpackCmd p).a)[k] ≠ 1 := by
  have hchecked : checkedLanes p = n := by rw [checkedLanes, if_pos hop, hneeded, Option.getD_some]
  refine or_congr (by simp [WrongLength, hneeded, eq_comm]) ?_
  simp only [NonBitLane, hchecked, firstLanes_unpackCmd p hn, Fin.exists_iff, Fin.getElem_fin, Vector.getElem_ofFn,
    exists_prop]

/-- R136's second and third conditions are together the cause of INVALID_INPUT (R131). -/
theorem operandError_iff_invalidInputCause (hp : decodePacket p = .ok i) :
    WrongLength p ∨ NonBitLane p ↔ invalidInputCause i := by
  have hop := op_of_decode hp
  cases i with
  | add | mul => simp [WrongLength, NonBitLane, neededLen, checkedLanes, hop, opcodeOf, invalidInputCause]
  | vmul =>
    cases (decodePacket_vmul hop).symm.trans hp
    exact operandError_iff_of_matrix (by rw [neededLen, hop]; rfl) (by simp [hop, opcodeOf])
  | mvmul =>
    cases (decodePacket_mvmul hop).symm.trans hp
    exact operandError_iff_of_matrix (by rw [neededLen, hop]; rfl) (by simp [hop, opcodeOf])
  | encode =>
    cases (decodePacket_encode hop).symm.trans hp
    exact operandError_iff_of_coder (by rw [neededLen, hop]; rfl) (by simp [hop, opcodeOf]) (by omega)
  | syndrome =>
    cases (decodePacket_syndrome hop).symm.trans hp
    exact operandError_iff_of_coder (by rw [neededLen, hop]; rfl) (by simp [hop, opcodeOf]) (by omega)
  | errvec =>
    cases (decodePacket_errvec hop).symm.trans hp
    exact operandError_iff_of_coder (by rw [neededLen, hop]; rfl) (by simp [hop, opcodeOf]) (by omega)
  | correct =>
    cases (decodePacket_correct hop).symm.trans hp
    exact operandError_iff_of_coder (by rw [neededLen, hop]; rfl) (by simp [hop, opcodeOf]) (by omega)
  | decode =>
    cases (decodePacket_decode hop).symm.trans hp
    exact operandError_iff_of_coder (by rw [neededLen, hop]; rfl) (by simp [hop, opcodeOf]) (by omega)

/-- The word of R136's fourth condition is the operand of ERRVEC and CORRECT, where that is valid. -/
theorem unmappedWord_iff (hvalid : ¬ ((p.extractLsb' 4 4).toNat ≠ 5 ∨
      ∃ k : Fin 5, (firstLanes 5 (unpackCmd p).a)[k] ≠ 0 ∧ (firstLanes 5 (unpackCmd p).a)[k] ≠ 1)) :
    unmappedWord p = true ↔ ∃ x, ((p.extractLsb' 4 4).toNat = 5 ∧ firstLanes 5 (unpackCmd p).a = lanesOf x) ∧
      HasUnmappedSyndrome x := by
  obtain ⟨hlen, y, hy⟩ := (valid_or_invalid _ _).resolve_right hvalid
  have hword : (BitVec.ofFnLE fun i : Fin 5 => p.getLsbD (8 + 8 * i)) = y := by
    rw [← coderVector_lanesOf y, ← hy, coderVector, firstLanes_unpackCmd p (by omega)]
    simp only [Fin.getElem_fin, Vector.getElem_ofFn, bit0_extractLsb']
  simp only [unmappedWord, hword, Bool.or_eq_true, beq_iff_eq, hlen, hy, true_and]
  refine ⟨fun hun => ⟨y, rfl, hun⟩, ?_⟩
  rintro ⟨x, hx, hun⟩
  rwa [← coderVector_lanesOf y, hx, coderVector_lanesOf]

/-- R136's fourth condition of CORRECT, in its instruction. -/
theorem unmapped_correct_iff (hp : decodePacket p = .ok i) (hvalid : ¬ invalidInputCause i) :
    (p.extractLsb' 0 4 = 0xB ∧ unmappedWord p = true) ↔ ∃ x, i = .correct 5 (lanesOf x) ∧ HasUnmappedSyndrome x := by
  by_cases hop : p.extractLsb' 0 4 = 0xB
  · cases (decodePacket_correct hop).symm.trans hp
    simp only [hop, true_and, Instr.correct.injEq]
    exact unmappedWord_iff hvalid
  · refine iff_of_false (fun h => hop h.1) ?_
    rintro ⟨x, rfl, -⟩
    exact hop (op_of_decode hp)

/-- R136's fourth condition of ERRVEC, in its instruction. -/
theorem unmapped_errvec_iff (hp : decodePacket p = .ok i) (hvalid : ¬ invalidInputCause i) :
    (p.extractLsb' 0 4 = 0xA ∧ unmappedWord p = true) ↔ ∃ x, i = .errvec 5 (lanesOf x) ∧ HasUnmappedSyndrome x := by
  by_cases hop : p.extractLsb' 0 4 = 0xA
  · cases (decodePacket_errvec hop).symm.trans hp
    simp only [hop, true_and, Instr.errvec.injEq]
    exact unmappedWord_iff hvalid
  · refine iff_of_false (fun h => hop h.1) ?_
    rintro ⟨x, rfl, -⟩
    exact hop (op_of_decode hp)

/-- The answer to a decoded packet: each condition of R136, where none before it holds, is the cause of its STATUS. -/
theorem rspStatus_eq_priorityStatus {s : State} {r : RspPacket} (hinv : s.Inv) (hp : decodePacket p = .ok i)
    (h : exec i s = .next { s with response := some r }) : rspStatus r = priorityStatus p := by
  obtain ⟨hinvalid, hinvalidCause⟩ := invalidInputCauses i s r h
  obtain ⟨huncorrectable, habsent, hcorrect, herrvec, -⟩ := unmappedSyndromeStatus i s r hinv h
  have hoperand := operandError_iff_invalidInputCause hp
  simp only [priorityStatus]
  rw [if_neg (not_reserved_of_decode hp)]
  split_ifs with hlen hlane hun hun'
  · exact hinvalid.mpr (hinvalidCause.mpr (hoperand.mp (.inl hlen)))
  · exact hinvalid.mpr (hinvalidCause.mpr (hoperand.mp (.inr hlane)))
  all_goals have hvalid : ¬ invalidInputCause i := hoperand.not.mp (not_or.mpr ⟨hlen, hlane⟩)
  · exact huncorrectable.mpr (hcorrect.mpr ((unmapped_correct_iff hp hvalid).mp hun))
  · exact habsent.mpr (herrvec.mpr ((unmapped_errvec_iff hp hvalid).mp hun'))
  · rw [unmapped_correct_iff hp hvalid] at hun
    rw [unmapped_errvec_iff hp hvalid] at hun'
    obtain ⟨st, hst, hok | hcause⟩ := rspStatus_of_exec h
    · rw [hst, hok]
      rfl
    cases st with
    | ok | illegalOpcode => exact hcause.elim
    | invalidInput => exact absurd hcause hvalid
    | uncorrectable => exact absurd (hcorrect.mp (huncorrectable.mp hst)) hun
    | absent => exact absurd (herrvec.mp (habsent.mp hst)) hun'

end

/-- Settles O41: a packet that gives no instruction has a reserved opcode; every other is answered as its instruction is. -/
theorem statusPriority : Obligations.StatusPriority := by
  intro s p rest hinv hs
  rw [step_command]
  by_cases hres : p.extractLsb' 0 4 ∈ [0x0#4, 0x5#4, 0x6#4, 0x7#4, 0xD#4, 0xE#4, 0xF#4]
  · rw [runCommand_reserved hres]
    exact ⟨0x0004, raiseIllegalOpcode_ready hs, (if_pos hres).symm⟩
  · obtain ⟨i, hp⟩ := exists_decode hres
    obtain ⟨r, hrun, -⟩ := runCommand_ready (s := { s with inputs := rest }) hs p
    exact ⟨r, hrun, rspStatus_eq_priorityStatus (s := { s with inputs := rest }) hinv hp
      ((runCommand_of_decode hp _).symm.trans hrun)⟩

end Sys2Proof.Machine
end

section
/-! PROOFS. Reset and hazards: a command that overlaps the previous one (70_reset_and_hazards.md). -/

namespace Sys2Proof.Machine

/-- After reset, while a response is outstanding, every packet is refused: whatever it asks for, it ends in a response of
its own, which `respond` refuses as an overlap (R157). -/
theorem runCommand_overlapping {s : State} (hbuilt : s.built = true) (hr : s.response ≠ none) (p : CmdPacket) :
    runCommand p s = .refused .overlappingCommand := by
  obtain ⟨st, n, bits, -, -, hrun⟩ := runCommand_is_respond p s
  exact hrun.trans (respond_overlapping hbuilt hr)

/-- Settles O9, by the refusal of every packet while a response is outstanding. -/
theorem overlapRefused : Obligations.OverlapRefused := by
  intro s p r rest hbuilt hr
  rw [step_command]
  exact runCommand_overlapping (s := { s with inputs := rest }) hbuilt (Option.ne_none_iff_exists'.mpr ⟨r, hr⟩) p

end Sys2Proof.Machine
end

section
/-! PROOFS. What every step keeps, the table that reset builds, the encoder's round trip, the properties of the code, and
whole runs. -/

namespace Sys2Proof.Machine

/-! ### The invariant -/

theorem resetBlock_synRom_of_inv {s : State} (h : s.Inv) : (resetBlock s).synRom = synImage := by
  obtain ⟨-, hH, -⟩ := h
  rw [resetBlock_synRom, hH, buildSynRom_hMatrix]

section
variable {s : State} (h : s.Inv)
include h

/-- The invariant does not speak of the events to come. -/
theorem State.Inv.withInputs (rest : List HostEvent) : State.Inv { s with inputs := rest } := h

theorem State.Inv.withResponse {r : RspPacket} (hr : legalResponse r) : State.Inv { s with response := some r } := by
  obtain ⟨hG, hH, hsyn, -, hreceived⟩ := h
  exact ⟨hG, hH, hsyn, by simpa using hr, hreceived⟩

/-- The response that the host receives was legal while it was outstanding. -/
theorem State.Inv.takeResponse {r : RspPacket} (hr : s.response = some r) :
    State.Inv { s with response := none, received := s.received ++ [r] } := by
  obtain ⟨hG, hH, hsyn, hresponse, hreceived⟩ := h
  refine ⟨hG, hH, hsyn, by simp, fun p hp => ?_⟩
  obtain hp | hp := List.mem_append.mp hp
  · exact hreceived p hp
  · exact hresponse p (by simpa [hr, eq_comm] using hp)

theorem State.Inv.resetBlock : (resetBlock s).Inv := by
  have hsyn := resetBlock_synRom_of_inv h
  obtain ⟨hG, hH, -, hresponse, hreceived⟩ := h
  exact ⟨hG, hH, fun _ => hsyn, hresponse, hreceived⟩

/-- After a loss of power nothing is said of the table, and the response that survives, if one does, was legal. -/
theorem State.Inv.powerLoss : (powerLoss s).Inv := by
  obtain ⟨hG, hH, -, hresponse, hreceived⟩ := h
  refine ⟨hG, hH, nofun, fun p hp => hresponse p ?_, hreceived⟩
  rw [powerLoss_response] at hp
  split at hp
  · exact hp
  · simp at hp

end

/-- Settles O4, event by event; a command answers with a legal response. -/
theorem stepKeepsInv : Obligations.StepKeepsInv := by
  intro s t hinv h
  obtain ⟨-, rfl⟩ | ⟨p, rest, -, hrun⟩ | ⟨rest, r, -, hr, rfl⟩ | ⟨rest, -, rfl⟩ | ⟨rest, -, rfl⟩ := step_next_cases h
  · exact hinv
  · obtain ⟨hs, -⟩ := runCommand_next hrun
    obtain ⟨r, hrun', hr⟩ := runCommand_ready hs p
    obtain rfl : _ = t := Host.Outcome.next.inj (hrun'.symm.trans hrun)
    exact (hinv.withInputs rest).withResponse hr
  · exact (hinv.withInputs rest).takeResponse hr
  · exact (hinv.withInputs rest).resetBlock
  · exact (hinv.withInputs rest).powerLoss

/-! ### The table that reset builds (R150) -/

section
variable {f : Nat → Fin 8} {g : Nat → SynEntry}

/-- The loop of R150 over the positions `ps`: entry `f p` is overwritten with `g p`. -/
def writeEntries (f : Nat → Fin 8) (g : Nat → SynEntry) (ps : List Nat) (t : Vector SynEntry 8) : Vector SynEntry 8 :=
  ps.foldl (fun t p => t.set (f p) (g p)) t

theorem get_set (t : Vector SynEntry 8) (i k : Fin 8) (e : SynEntry) :
    (t.set i e).get k = if i = k then e else t.get k := by
  simp [Vector.get_eq_getElem, Vector.getElem_set, Fin.ext_iff]

theorem get_set_self (t : Vector SynEntry 8) (i : Fin 8) (e : SynEntry) : (t.set i e).get i = e := by
  rw [get_set, if_pos rfl]

theorem writeEntries_get_of_ne {ps : List Nat} {k : Fin 8} (h : ∀ p ∈ ps, f p ≠ k) (t : Vector SynEntry 8) :
    (writeEntries f g ps t).get k = t.get k := by
  induction ps generalizing t with
  | nil => rfl
  | cons p ps ih =>
    obtain ⟨hp, hps⟩ := List.forall_mem_cons.mp h
    exact (ih hps _).trans ((get_set t _ _ _).trans (if_neg hp))

theorem writeEntries_get {ps : List Nat} (hf : ∀ p ∈ ps, ∀ q ∈ ps, f p = f q → p = q) {p : Nat} (hp : p ∈ ps)
    (t : Vector SynEntry 8) : (writeEntries f g ps t).get (f p) = g p := by
  induction ps generalizing t with
  | nil => cases hp
  | cons q ps ih =>
    by_cases hps : p ∈ ps
    · exact ih (fun a ha b hb => hf a (.tail _ ha) b (.tail _ hb)) hps _
    · obtain rfl | hmem := List.mem_cons.mp hp
      · have hne : ∀ a ∈ ps, f a ≠ f p := fun a ha hap => hps (hf a (.tail _ ha) p hp hap ▸ ha)
        rw [writeEntries, List.foldl_cons]
        exact (writeEntries_get_of_ne hne _).trans (get_set_self t _ _)
      · exact absurd hmem hps

end

theorem buildSynRom_eq (h : BitMatrix 3 5) :
    buildSynRom h = (writeEntries (fun p => key (mxv h (unitVector p))) (fun p => ⟨true, unitVector p⟩) (List.range 5)
      (Vector.replicate 8 ⟨false, 0⟩)).set (0 : Fin 8) ⟨true, 0⟩ := rfl

/-- Only the syndrome zero has the key 0 (R25). -/
theorem key_eq_zero_iff {t : BitVec 3} : key t = 0 ↔ t = 0 := ⟨fun h => key_injective t 0 h, fun h => h ▸ rfl⟩

section
variable {h : BitMatrix 3 5}

theorem buildSynRom_get_zero : (buildSynRom h).get 0 = ⟨true, 0⟩ := get_set_self _ 0 _

theorem buildSynRom_get_unmapped {k : Fin 8} (hk : k ≠ 0) (hcol : ∀ p < 5, k ≠ key (mxv h (unitVector p))) :
    (buildSynRom h).get k = ⟨false, 0⟩ := by
  rw [buildSynRom_eq, get_set, if_neg hk.symm,
    writeEntries_get_of_ne fun p hp => (hcol p (List.mem_range.mp hp)).symm]
  simp [Vector.get_eq_getElem]

theorem buildSynRom_get_column (hne : ∀ p < 5, mxv h (unitVector p) ≠ 0)
    (hinj : ∀ p < 5, ∀ q < 5, mxv h (unitVector p) = mxv h (unitVector q) → p = q) {p : Nat} (hp : p < 5) :
    (buildSynRom h).get (key (mxv h (unitVector p))) = ⟨true, unitVector p⟩ := by
  have hkeys : ∀ a ∈ List.range 5, ∀ b ∈ List.range 5,
      key (mxv h (unitVector a)) = key (mxv h (unitVector b)) → a = b := fun a ha b hb hab =>
    hinj a (List.mem_range.mp ha) b (List.mem_range.mp hb) (key_injective _ _ hab)
  rw [buildSynRom_eq, get_set, if_neg fun h0 => hne p hp (key_eq_zero_iff.mp h0.symm)]
  exact writeEntries_get hkeys (List.mem_range.mpr hp) _

end

/-- Settles O5: the keys of the single errors are distinct and not 0, so no entry is written twice. -/
theorem resetBuildsSyndromeTable : Obligations.ResetBuildsSyndromeTable := fun _ hne hinj =>
  ⟨rfl, fun _ hp => buildSynRom_get_column hne hinj hp, buildSynRom_get_zero, fun _ hk hcol =>
    buildSynRom_get_unmapped hk hcol⟩

/-! ### Reset, power and the interface -/

/-- Settles O2: the reset event writes the table and `BUILT`; the other fields are those of power-on. -/
theorem resetIsFirstResetAfterPowerOn : Obligations.ResetIsFirstResetAfterPowerOn := rfl

theorem runCommand_before_reset {s : State} (h : s.built = false) (p : CmdPacket) :
    runCommand p s = .refused .beforeReset := by
  obtain ⟨st, n, bits, -, -, hrun⟩ := runCommand_is_respond p s
  exact hrun.trans (respond_before_reset h)

/-- Settles O7: every packet ends in a response of its own, which `respond` refuses before reset. -/
theorem commandBeforeResetRefused : Obligations.CommandBeforeResetRefused :=
  ⟨rfl, rfl, fun _ => rfl, fun s p rest h =>
    runCommand_before_reset (s := { s with inputs := rest }) h p⟩

theorem step_powerLoss (s : State) (rest : List HostEvent) :
    step { s with inputs := .powerLoss :: rest } = .next (powerLoss { s with inputs := rest }) := rfl

theorem step_reset (s : State) (rest : List HostEvent) :
    step { s with inputs := .reset :: rest } = .next (resetBlock { s with inputs := rest }) := rfl

/-- Settles O8: a loss of power leaves `BUILT` at 0 and the invariant true, from which reset restores the table. -/
theorem powerLossNeedsReset : Obligations.PowerLossNeedsReset := by
  intro s p rest hinv
  refine ⟨⟨_, step_powerLoss s _, (step_command (powerLoss s) p rest).trans (runCommand_before_reset rfl p)⟩, ?_⟩
  obtain ⟨hG, hH, -⟩ := hinv.powerLoss
  exact ⟨_, _, step_powerLoss s _, step_reset (powerLoss s) rest, hG, hH,
    resetBlock_synRom_of_inv hinv.powerLoss, rfl, rfl, rfl⟩

/-- Settles O3: reset has built the table, and no response is outstanding or received. -/
theorem invHoldsAtReset : Obligations.InvHoldsAtReset := ⟨rfl, rfl, fun _ => buildSynRom_hMatrix, nofun, nofun⟩

/-- In a run the table that reset builds stands already. -/
theorem resetBlock_of_inv {s : State} (h : s.Inv) (hbuilt : s.built = true) : resetBlock s = s := by
  have hsyn := resetBlock_synRom_of_inv h
  obtain ⟨-, -, hsyn', -⟩ := h
  obtain ⟨g, m, syn, built, inputs, response, received, n⟩ := s
  simp only [resetBlock, State.mk.injEq, true_and, and_true] at *
  exact ⟨hsyn.trans (hsyn' hbuilt).symm, hbuilt.symm⟩

/-- Settles O6, by what a reset makes of a state of the invariant. -/
theorem secondResetChangesNothing : Obligations.SecondResetChangesNothing := by
  refine ⟨fun s rest hinv hbuilt => ?_, fun s => rfl, fun s hinv => resetBlock_synRom_of_inv hinv⟩
  rw [step_reset, resetBlock_of_inv (hinv.withInputs rest) hbuilt]

theorem takeResponse_none {s : State} (h : s.response = none) : takeResponse s = .refused .noResponse := by
  unfold takeResponse
  rw [h]

/-- Settles O10, by the event at the head of the list. -/
theorem idleAndTakeResponse : Obligations.IdleAndTakeResponse := by
  refine ⟨fun s h => ?_, fun s r rest h => ?_, fun s rest h => ?_⟩
  · rw [step, h]
  · exact takeResponse_next_iff.mpr ⟨r, h, rfl⟩
  · exact takeResponse_none (s := { s with inputs := rest }) h

/-! ### The fields of a packet (R56) -/

theorem getD_toList {n : Nat} (v : Vector Byte n) (i : Nat) : v.toList.getD i 0 = v.getD i 0 := by
  by_cases h : i < n <;> simp [List.getD_eq_getElem?_getD, Vector.getD, h]

section
variable (c : Cmd) {i j : Nat}

theorem cmdBit_alen (hi : i < 4) : cmdBit c (4 + i) = c.alen.getLsbD i := by
  simp (disch := omega) only [cmdBit, if_neg, if_pos, Nat.add_sub_cancel_left]

theorem cmdBit_lane (hi : i < 8) (hj : j < 8) : cmdBit c (8 + 8 * i + j) = (c.a.getD i 0).getLsbD j := by
  have hbyte : (8 + 8 * i + j - 8) / 8 = i := by omega
  have hbit : (8 + 8 * i + j - 8) % 8 = j := by omega
  simp (disch := omega) only [cmdBit, if_neg, if_pos, getD_toList, hbyte, hbit]

theorem cmdBit_b (hi : i < 8) : cmdBit c (72 + i) = c.b.getLsbD i := by
  simp (disch := omega) only [cmdBit, if_neg, if_pos, Nat.add_sub_cancel_left]

theorem cmdBit_mr1 (hi : i < 3) : cmdBit c (80 + i) = c.mr1.getLsbD i := by
  simp (disch := omega) only [cmdBit, if_neg, if_pos, Nat.add_sub_cancel_left]

theorem cmdBit_mc1 (hi : i < 3) : cmdBit c (83 + i) = c.mc1.getLsbD i := by
  simp (disch := omega) only [cmdBit, if_neg, if_pos, Nat.add_sub_cancel_left]

theorem cmdBit_rsv0 (hi : i < 2) : cmdBit c (86 + i) = c.rsv0.getLsbD i := by
  simp (disch := omega) only [cmdBit, if_neg, if_pos, Nat.add_sub_cancel_left]

theorem cmdBit_row (hi : i < 8) (hj : j < 8) : cmdBit c (88 + 8 * i + j) = (c.mrow.getD i 0).getLsbD j := by
  have hbyte : (88 + 8 * i + j - 88) / 8 = i := by omega
  have hbit : (88 + 8 * i + j - 88) % 8 = j := by omega
  simp (disch := omega) only [cmdBit, if_neg, getD_toList, hbyte, hbit]

end

theorem vector_ext_getD {n : Nat} {v w : Vector Byte n} (h : ∀ i < n, v.getD i 0 = w.getD i 0) : v = w := by
  ext i hi : 1
  simpa [getD_of_lt, hi] using h i hi

/-- Cutting out a field that holds the packet's bits at its position gives the field. -/
theorem extractLsb'_packCmd {c : Cmd} {pos w : Nat} {f : BitVec w} (hw : pos + w ≤ 152)
    (h : ∀ i < w, cmdBit c (pos + i) = f.getLsbD i) : (packCmd c).extractLsb' pos w = f := by
  refine BitVec.eq_of_getLsbD_eq fun i hi => ?_
  rw [BitVec.getLsbD_extractLsb', packCmd_bit c (by omega), h i hi, decide_eq_true hi, Bool.true_and]

theorem unpackCmd_packCmd (c : Cmd) : unpackCmd (packCmd c) = c := by
  have ha : (unpackCmd (packCmd c)).a = c.a := vector_ext_getD fun i hi =>
    (unpackCmd_lane _ hi).trans (extractLsb'_packCmd (by omega) fun _ => cmdBit_lane c hi)
  have hmrow : (unpackCmd (packCmd c)).mrow = c.mrow := vector_ext_getD fun i hi =>
    (unpackCmd_row _ hi).trans (extractLsb'_packCmd (by omega) fun _ => cmdBit_row c hi)
  have halen := extractLsb'_packCmd (by omega) fun _ => cmdBit_alen c
  have hb := extractLsb'_packCmd (by omega) fun _ => cmdBit_b c
  have hmr1 := extractLsb'_packCmd (by omega) fun _ => cmdBit_mr1 c
  have hmc1 := extractLsb'_packCmd (by omega) fun _ => cmdBit_mc1 c
  have hrsv0 := extractLsb'_packCmd (by omega) fun _ => cmdBit_rsv0 c
  cases c
  simp only [unpackCmd, Cmd.mk.injEq] at ha hmrow ⊢
  exact ⟨packCmd_op _, halen, ha, hb, hmr1, hmc1, hrsv0, hmrow⟩

theorem extractLsb'_bit {p : CmdPacket} {pos w i k : Nat} (hi : i < w) (hk : pos + i = k) :
    (p.extractLsb' pos w).getLsbD i = p.getLsbD k := by
  rw [BitVec.getLsbD_extractLsb', decide_eq_true hi, Bool.true_and, hk]

theorem cmdBit_unpackCmd (p : CmdPacket) {k : Nat} (hk : k < 152) : cmdBit (unpackCmd p) k = p.getLsbD k := by
  simp only [cmdBit, getD_toList]
  split_ifs
  case pos => exact extractLsb'_bit (by omega) (by omega)
  case pos => exact extractLsb'_bit (by omega) (by omega)
  case pos =>
    rw [unpackCmd_lane p (by omega)]
    exact extractLsb'_bit (by omega) (by omega)
  case pos => exact extractLsb'_bit (by omega) (by omega)
  case pos => exact extractLsb'_bit (by omega) (by omega)
  case pos => exact extractLsb'_bit (by omega) (by omega)
  case pos => exact extractLsb'_bit (by omega) (by omega)
  case neg =>
    rw [unpackCmd_row p (by omega)]
    exact extractLsb'_bit (by omega) (by omega)

theorem packCmd_unpackCmd (p : CmdPacket) : packCmd (unpackCmd p) = p :=
  BitVec.eq_of_getLsbD_eq fun _ hk => (packCmd_bit _ hk).trans (cmdBit_unpackCmd p hk)

/-- Settles O15, by the bits of each field in both directions. -/
theorem fieldsPartitionPacket : Obligations.FieldsPartitionPacket := ⟨unpackCmd_packCmd, packCmd_unpackCmd⟩

/-! ### Decoding an encoded instruction -/

theorem dimOf_dimField {d : Nat} (h : dimWf d = true) : dimOf (dimField d) = d := by
  simp only [dimWf, Config.maxDim, Bool.and_eq_true, decide_eq_true_eq] at h
  simp only [dimOf, dimField, BitVec.toNat_ofNat]
  omega

theorem toNat_ofNat_of_lenWf {n : Nat} (h : lenWf n = true) : (BitVec.ofNat 4 n).toNat = n :=
  Nat.mod_eq_of_lt (Nat.lt_succ_of_le (of_decide_eq_true h))

theorem firstLanes_padLanes {n : Nat} (hn : n ≤ 8) (a : Vector Lane n) : firstLanes n (padLanes a) = a := by
  ext i hi : 1
  simp only [firstLanes, padLanes, Vector.getElem_ofFn]
  rw [getD_of_lt _ _ (hi.trans_le hn), Vector.getElem_ofFn, getD_of_lt _ _ hi]

/-- The encoder's fields hold every operand that the decoder reads: lengths and dimensions fit in theirs, and padding keeps
a coder operand's lanes. -/
theorem decodeCmd_encodeCmd {i : Instr} (h : i.wf = true) : decodeCmd (encodeCmd i) = .ok i := by
  cases i with
  | add | mul => rfl
  | vmul alen a rows cols m =>
    obtain ⟨hlenrows, hcols⟩ := Bool.and_eq_true_iff.mp h
    obtain ⟨hlen, hrows⟩ := Bool.and_eq_true_iff.mp hlenrows
    change Except.ok (Instr.vmul (BitVec.ofNat 4 alen).toNat a (dimOf (dimField rows)) (dimOf (dimField cols)) m) = _
    rw [toNat_ofNat_of_lenWf hlen, dimOf_dimField hrows, dimOf_dimField hcols]
  | mvmul alen a rows cols m =>
    obtain ⟨hlenrows, hcols⟩ := Bool.and_eq_true_iff.mp h
    obtain ⟨hlen, hrows⟩ := Bool.and_eq_true_iff.mp hlenrows
    change Except.ok (Instr.mvmul (BitVec.ofNat 4 alen).toNat a (dimOf (dimField rows)) (dimOf (dimField cols)) m) = _
    rw [toNat_ofNat_of_lenWf hlen, dimOf_dimField hrows, dimOf_dimField hcols]
  | encode _ m =>
    exact congrArg₂ (Except.ok <| Instr.encode · ·) (toNat_ofNat_of_lenWf h) (firstLanes_padLanes (by decide) m)
  | syndrome _ r =>
    exact congrArg₂ (Except.ok <| Instr.syndrome · ·) (toNat_ofNat_of_lenWf h) (firstLanes_padLanes (by decide) r)
  | errvec _ r =>
    exact congrArg₂ (Except.ok <| Instr.errvec · ·) (toNat_ofNat_of_lenWf h) (firstLanes_padLanes (by decide) r)
  | correct _ r =>
    exact congrArg₂ (Except.ok <| Instr.correct · ·) (toNat_ofNat_of_lenWf h) (firstLanes_padLanes (by decide) r)
  | decode _ c =>
    exact congrArg₂ (Except.ok <| Instr.decode · ·) (toNat_ofNat_of_lenWf h) (firstLanes_padLanes (by decide) c)

/-- Settles O13: cutting the packet gives the encoder's fields back, and these decode to the instruction. -/
theorem decodeEncodeRoundTrip : Obligations.DecodeEncodeRoundTrip := fun i h => by
  rw [decodePacket, encode, unpackCmd_packCmd, decodeCmd_encodeCmd h]

/-! ### The bits that decoding and encoding keep (R61) -/

theorem getD_padLanes {n i : Nat} (hn : n ≤ 8) (a : Vector Lane n) (hi : i < n) : (padLanes a).getD i 0 = a.getD i 0 := by
  rw [getD_of_lt _ _ (hi.trans_le hn), padLanes, Vector.getElem_ofFn]

theorem getD_firstLanes {n i : Nat} (a : Vector Lane 8) (hi : i < n) : (firstLanes n a).getD i 0 = a.getD i 0 := by
  rw [getD_of_lt _ _ hi, firstLanes, Vector.getElem_ofFn]

theorem ofNat_toNat_alen (x : BitVec 4) : BitVec.ofNat 4 x.toNat = x := by
  rw [BitVec.ofNat_toNat, BitVec.setWidth_eq]

theorem dimField_dimOf (d : BitVec 3) : dimField (dimOf d) = d := by
  simp [dimField, dimOf]

section
variable {c : Cmd} {op : BitVec 4} {k : Nat}

/-- ADD and MUL: bit 0 of lane 0 and of `B` is kept. -/
theorem cmdBit_scalar {x : Lane} (hop : c.op = op) (hx : c.a.getD 0 0 = x) (hk : k < 4 ∨ k = 8 ∨ k = 72) :
    cmdBit { zeroCmd with op := op, a := padLanes #v[x], b := c.b } k = cmdBit c k := by
  obtain hk | rfl | rfl := hk
  · simp only [cmdBit, if_pos hk, hop]
  · rw [cmdBit_lane _ (i := 0) (j := 0) (by omega) (by omega), cmdBit_lane c (i := 0) (j := 0) (by omega) (by omega), hx]
    rfl
  · rw [cmdBit_b _ (i := 0) (by omega), cmdBit_b c (i := 0) (by omega)]

/-- VMUL and MVMUL: every bit outside `B` and `RSV0` is kept. -/
theorem cmdBit_matrix (hop : c.op = op) (hk : k < 72 ∨ 80 ≤ k ∧ k < 86 ∨ 88 ≤ k) :
    cmdBit { zeroCmd with
      op := op, alen := BitVec.ofNat 4 c.alen.toNat, a := c.a, mr1 := dimField (dimOf c.mr1),
      mc1 := dimField (dimOf c.mc1), mrow := c.mrow } k = cmdBit c k := by
  rw [ofNat_toNat_alen, dimField_dimOf, dimField_dimOf, ← hop]
  obtain hk | hk | hk := hk <;> simp (disch := omega) only [cmdBit, if_pos, if_neg]

/-- The coder commands: every bit of `OP`, `ALEN` and the first `n` lanes is kept. -/
theorem cmdBit_coder {n : Nat} (hn : n ≤ 8) (hop : c.op = op) (hk : k < 8 + 8 * n) :
    cmdBit { zeroCmd with op := op, alen := BitVec.ofNat 4 c.alen.toNat, a := padLanes (firstLanes n c.a) } k =
      cmdBit c k := by
  rw [ofNat_toNat_alen, ← hop]
  simp only [cmdBit, getD_toList, if_pos (show k < 72 by omega)]
  split_ifs
  case pos | pos => rfl
  case neg => rw [getD_padLanes hn _ (by omega), getD_firstLanes _ (by omega)]

end

section
variable {p : CmdPacket} {k : Nat}

theorem listedBit_scalar (hop : p.extractLsb' 0 4 = 0x1 ∨ p.extractLsb' 0 4 = 0x2) (h : listedBit p k = true) :
    k < 4 ∨ k = 8 ∨ k = 72 := by
  obtain hop | hop := hop <;> simpa [listedBit, hop] using h

/-- The bits that R61 lists for VMUL and MVMUL lie neither in `B` nor in `RSV0`. -/
theorem matrixListed_range {n rows cols : Nat} (hn : n ≤ 8) (h : matrixListed n rows cols k) :
    k < 72 ∨ 80 ≤ k ∧ k < 86 ∨ 88 ≤ k := by
  unfold matrixListed at h
  omega

theorem listedBit_encode (hop : p.extractLsb' 0 4 = 0x8) (h : listedBit p k = true) : k < 8 + 8 * 2 := by
  have hk : k < 4 ∨ k < 24 := by simpa [listedBit, hop] using h
  omega

theorem listedBit_word (hop : p.extractLsb' 0 4 ∈ [0x9#4, 0xA#4, 0xB#4, 0xC#4]) (h : listedBit p k = true) :
    k < 8 + 8 * 5 := by
  simp only [List.mem_cons, List.not_mem_nil, or_false] at hop
  have hk : k < 4 ∨ k < 48 := by
    obtain hop | hop | hop | hop := hop <;> simpa [listedBit, hop] using h
  omega

end

/-- What decoding drops and encoding writes as 0 is not listed, operation by operation. -/
theorem encode_bit_of_decode {p : CmdPacket} {i : Instr} (hp : decodePacket p = .ok i) {k : Nat} (hk : k < 152)
    (hlisted : listedBit p k = true) : (encode i).getLsbD k = p.getLsbD k := by
  have hop := op_of_decode hp
  rw [encode, packCmd_bit _ hk, ← cmdBit_unpackCmd p hk]
  cases i with
  | add =>
    cases (decodePacket_add hop).symm.trans hp
    exact cmdBit_scalar (c := unpackCmd p) hop (unpackCmd_lane p (by omega)) (listedBit_scalar (.inl hop) hlisted)
  | mul =>
    cases (decodePacket_mul hop).symm.trans hp
    exact cmdBit_scalar (c := unpackCmd p) hop (unpackCmd_lane p (by omega)) (listedBit_scalar (.inr hop) hlisted)
  | vmul =>
    cases (decodePacket_vmul hop).symm.trans hp
    exact cmdBit_matrix (c := unpackCmd p) hop (matrixListed_range (dimOf_le _) ((listedBit_vmul hop).mp hlisted))
  | mvmul =>
    cases (decodePacket_mvmul hop).symm.trans hp
    exact cmdBit_matrix (c := unpackCmd p) hop (matrixListed_range (dimOf_le _) ((listedBit_mvmul hop).mp hlisted))
  | encode =>
    cases (decodePacket_encode hop).symm.trans hp
    exact cmdBit_coder (c := unpackCmd p) (by omega) hop (listedBit_encode hop hlisted)
  | syndrome =>
    cases (decodePacket_syndrome hop).symm.trans hp
    exact cmdBit_coder (c := unpackCmd p) (by omega) hop (listedBit_word (by simp [hop, opcodeOf]) hlisted)
  | errvec =>
    cases (decodePacket_errvec hop).symm.trans hp
    exact cmdBit_coder (c := unpackCmd p) (by omega) hop (listedBit_word (by simp [hop, opcodeOf]) hlisted)
  | correct =>
    cases (decodePacket_correct hop).symm.trans hp
    exact cmdBit_coder (c := unpackCmd p) (by omega) hop (listedBit_word (by simp [hop, opcodeOf]) hlisted)
  | decode =>
    cases (decodePacket_decode hop).symm.trans hp
    exact cmdBit_coder (c := unpackCmd p) (by omega) hop (listedBit_word (by simp [hop, opcodeOf]) hlisted)

/-- Settles O14, by the bits that decoding and encoding keep. -/
theorem decodedIsWellFormedAndKeepsListedBits : Obligations.DecodedIsWellFormedAndKeepsListedBits :=
  fun _ _ hp => ⟨decodePacket_wf hp, fun _ hk hlisted => encode_bit_of_decode hp hk hlisted⟩

/-! ### Words and the commands they present -/

/-- Settles O11, by decoding each word. -/
theorem exampleWordsDecode : Obligations.ExampleWordsDecode := by
  refine ⟨?_, ?_, ?_, ?_, ?_⟩ <;> decide

/-- Settles O17, by the event at the head of the list. -/
theorem stepRunsDecodedInstruction : Obligations.StepRunsDecodedInstruction := by
  intro s p rest i hin hp
  rw [step, hin]
  exact runCommand_of_decode hp _

/-- What `decodeTableWord` decodes is the packet that `withFetchWord` presents. -/
theorem decodePacket_of_decodeTableWord {nbits w : Nat} {i : Instr} (h : decodeTableWord nbits w = some i) :
    decodePacket (BitVec.ofNat 152 (w % 2 ^ nbits)) = .ok i := by
  have hbytes := decodeBytes_packetBytes_append (BitVec.ofNat 152 (w % 2 ^ nbits)) []
  rw [List.append_nil] at hbytes
  rw [decodeTableWord, hbytes] at h
  cases hp : decodePacket (BitVec.ofNat 152 (w % 2 ^ nbits)) with
  | ok j => simpa [hp, Except.map] using h
  | error e => simp [hp, Except.map] at h

/-- Settles O18: the word that decodes is the next event, and runs as its packet does. -/
theorem fetchWordRunsTableWord : Obligations.FetchWordRunsTableWord := fun s _ _ _ h =>
  runCommand_of_decode (decodePacket_of_decodeTableWord h) { s with response := none }

/-! ### VMUL and MVMUL, instruction by instruction -/

section
variable {s : State} {alen rows cols : Nat} (a : Vector Lane 8) (m : Vector (BitVec 8) 8)

theorem exec_invalid_ready {i : Instr} (hs : s.ready) (h : invalidInputCause i) :
    exec i s = .next { s with response := some 0x0002 } :=
  (exec_of_invalidInputCause h s).trans (raiseInvalidInput_ready hs)

theorem exec_vmul_completes (hs : s.ready) (hcols : cols ≤ 8) :
    ∃ r, exec (.vmul alen a rows cols m) s = .next { s with response := some r } ∧
      (alen ≠ rows → r = 0x0002) ∧
      (alen = rows → rspStatus r = 0 ∧ rspLen r = cols ∧
        ∀ j < cols, rspElem r j = xorAll rows fun i => (a.getD i 0).getLsbD 0 && (m.getD i 0).getLsbD j) := by
  by_cases hlen : alen = rows
  · obtain ⟨r, hrun, hstatus, -, hrlen, helem⟩ :=
      respond_ok_ready hs (vxm (arithVector rows a) (commandMatrix rows cols m)) hcols
    refine ⟨r, (exec_vmul_conforming hlen a m s).trans hrun, (absurd hlen ·), fun _ => ⟨hstatus, hrlen, ?_⟩⟩
    intro j hj
    rw [helem, vxm_bit _ _ hj]
    exact xorAll_congr fun i hi => by rw [arithVector_bit a hi, cell_commandMatrix m hi hj]
  · exact ⟨0x0002, exec_invalid_ready hs hlen, fun _ => rfl, (absurd · hlen)⟩

theorem exec_mvmul_completes (hs : s.ready) (hrows : rows ≤ 8) :
    ∃ r, exec (.mvmul alen a rows cols m) s = .next { s with response := some r } ∧
      (alen ≠ cols → r = 0x0002) ∧
      (alen = cols → rspStatus r = 0 ∧ rspLen r = rows ∧
        ∀ i < rows, rspElem r i = xorAll cols fun j => (m.getD i 0).getLsbD j && (a.getD j 0).getLsbD 0) := by
  by_cases hlen : alen = cols
  · obtain ⟨r, hrun, hstatus, -, hrlen, helem⟩ :=
      respond_ok_ready hs (mxv (commandMatrix rows cols m) (arithVector cols a)) hrows
    refine ⟨r, (exec_mvmul_conforming hlen a m s).trans hrun, (absurd hlen ·), fun _ => ⟨hstatus, hrlen, ?_⟩⟩
    intro i hi
    rw [helem, mxv_bit _ _ hi]
    exact xorAll_congr fun j hj => by rw [arithVector_bit a hj, cell_commandMatrix m hi hj]
  · exact ⟨0x0002, exec_invalid_ready hs hlen, fun _ => rfl, (absurd · hlen)⟩

end

/-- Settles O25, by the completion of both instructions. -/
theorem matrixProductsComplete : Obligations.MatrixProductsComplete := fun _ a _ _ m _ hs _ hrows _ hcols =>
  ⟨exec_vmul_completes a m hs hcols, exec_mvmul_completes a m hs hrows⟩

/-! ### The laws of GF(2) (R87) -/

theorem vxm_xor {r c : Nat} (m : BitMatrix r c) (u w : BitVec r) : vxm (u ^^^ w) m = vxm u m ^^^ vxm w m := by
  refine BitVec.eq_of_getLsbD_eq fun j hj => ?_
  simp only [BitVec.getLsbD_xor, vxm_bit _ _ hj, Bool.and_xor_distrib_right, xorAll_xor]

/-- Settles O26: the scalar laws are checked on the two Bits, and both products are linear. -/
theorem gf2Laws : Obligations.GF2Laws := ⟨by decide, fun _ _ => vxm_xor, fun _ _ => mxv_xor⟩

/-! ### The coder composed from VMUL and MVMUL (95_test_vectors.md P4) -/

/-- An arithmetic command reads the Bit vector that padded lanes present. -/
theorem arithVector_padLanes_lanesOf {n : Nat} (hn : n ≤ 8) (x : BitVec n) : arithVector n (padLanes (lanesOf x)) = x := by
  conv_rhs => rw [← coderVector_lanesOf x]
  refine BitVec.eq_of_getLsbD_eq fun i hi => ?_
  rw [arithVector_bit _ hi, getD_padLanes hn _ hi, coderVector_bit _ hi, getD_of_lt _ _ hi, bit0]

theorem commandMatrix_gMatrix : commandMatrix 2 5 #v[0x1D, 0x1A, 0, 0, 0, 0, 0, 0] = Config.gMatrix := by decide

theorem commandMatrix_hMatrix : commandMatrix 3 5 #v[0x05, 0x0B, 0x13, 0, 0, 0, 0, 0] = Config.hMatrix := by decide

theorem exec_vmul_gMatrix {s : State} (hG : s.gRom = Config.gMatrix) (m : BitVec 2) :
    exec (.vmul 2 (padLanes (lanesOf m)) 2 5 #v[0x1D, 0x1A, 0, 0, 0, 0, 0, 0]) s = exec (.encode 2 (lanesOf m)) s := by
  rw [exec_vmul_conforming rfl, exec_encode_valid rfl (binary_lanesOf m), arithVector_padLanes_lanesOf (by omega),
    commandMatrix_gMatrix, coderVector_lanesOf, hG]

theorem exec_mvmul_hMatrix {s : State} (hH : s.hRom = Config.hMatrix) (r : BitVec 5) :
    exec (.mvmul 5 (padLanes (lanesOf r)) 3 5 #v[0x05, 0x0B, 0x13, 0, 0, 0, 0, 0]) s =
      exec (.syndrome 5 (lanesOf r)) s := by
  rw [exec_mvmul_conforming rfl, exec_syndrome_valid rfl (binary_lanesOf r), arithVector_padLanes_lanesOf (by omega),
    commandMatrix_hMatrix, coderVector_lanesOf, hH]

/-- Settles O27: the matrix in the command is the hardwired one, and the vector the same. -/
theorem arithmeticComposesCoder : Obligations.ArithmeticComposesCoder := by
  intro s hinv
  obtain ⟨hG, hH, -⟩ := hinv
  exact ⟨exec_vmul_gMatrix hG, exec_mvmul_hMatrix hH⟩

/-! ### Host elements that are no Bit (R142) -/

/-- A host that keeps duty 3 maps no other element to the lane of a Bit. -/
theorem LaneDuty.not_bit {f : Int → Lane} (hf : LaneDuty f) {x : Int} (h : x ≠ 0 ∧ x ≠ 1) : f x ≠ 0 ∧ f x ≠ 1 := by
  obtain ⟨hin, hout⟩ := hf
  have hval : 2 ≤ (f x).toNat := by
    by_cases hx : 0 ≤ x ∧ x ≤ 255
    · have hlane := hin x hx.1 hx.2
      omega
    · exact hout x (by omega)
  refine ⟨fun h0 => ?_, fun h1 => ?_⟩
  · exact absurd (h0 ▸ hval) (by decide)
  · exact absurd (h1 ▸ hval) (by decide)

theorem map_not_bit {n : Nat} {f : Int → Lane} (hf : LaneDuty f) {a : Vector Int n}
    (h : ∃ i : Fin n, a[i] ≠ 0 ∧ a[i] ≠ 1) : ∃ i : Fin n, (a.map f)[i] ≠ 0 ∧ (a.map f)[i] ≠ 1 := by
  obtain ⟨i, hi⟩ := h
  exact ⟨i, by simpa using hf.not_bit hi⟩

/-- Settles O38: the mapped element is a cause of INVALID_INPUT for each command that examines it. -/
theorem mappedNonBinaryElementRejected : Obligations.MappedNonBinaryElementRejected := by
  intro f s alen hf hs
  refine ⟨fun m hm => exec_invalid_ready hs (.inr (map_not_bit hf hm)), fun r hr => ?_⟩
  have hcause := map_not_bit hf hr
  exact ⟨exec_invalid_ready hs (.inr hcause), exec_invalid_ready hs (.inr hcause), exec_invalid_ready hs (.inr hcause),
    exec_invalid_ready hs (.inr hcause)⟩

/-! ### The code (R26) -/

theorem mem_codewords_iff_row_space : ∀ c : BitVec 5, c ∈ codewords ↔ ∃ m : BitVec 2, vxm m Config.gMatrix = c := by
  decide +kernel

theorem mem_codewords_iff_null_space : ∀ r : BitVec 5, r ∈ codewords ↔ mxv Config.hMatrix r = 0 := by decide +kernel

/-- Two words have the same syndrome exactly when they differ by a word of syndrome zero: the product is linear. -/
theorem mxv_eq_iff {h : BitMatrix 3 5} {u w : BitVec 5} : mxv h u = mxv h w ↔ mxv h (u ^^^ w) = 0 := by
  rw [mxv_xor]
  exact BitVec.xor_eq_zero_iff.symm

theorem xor_mem_codewords {c d : BitVec 5} (hc : c ∈ codewords) (hd : d ∈ codewords) : c ^^^ d ∈ codewords := by
  rw [mem_codewords_iff_null_space, mxv_xor, mxv_hMatrix_codeword c hc, mxv_hMatrix_codeword d hd]
  rfl

/-- An error of weight at most 1 is read back from the table at its syndrome, so no two share one. -/
theorem eq_of_mxv_eq {u w : BitVec 5} (hu : weight u ≤ 1) (hw : weight w ≤ 1)
    (h : mxv Config.hMatrix u = mxv Config.hMatrix w) : u = w := by
  have hentry := (synImage_get_error u hu).symm.trans (h ▸ synImage_get_error w hw)
  exact congrArg SynEntry.e hentry

/-- Settles O33: the four codewords are checked against both matrices; the rest follows from linearity and the table. -/
theorem codeIsRowSpaceAndNullSpace : Obligations.CodeIsRowSpaceAndNullSpace :=
  ⟨mem_codewords_iff_row_space, mem_codewords_iff_null_space, by decide, by decide,
    fun _ _ => mxv_eq_iff.trans (mem_codewords_iff_null_space _).symm, fun _ _ => eq_of_mxv_eq⟩

/-! ### Words with errors -/

section
variable {s : State} (hinv : s.Inv) (hs : s.ready)
include hinv hs

theorem exec_syndrome_lanesOf (x : BitVec 5) :
    exec (.syndrome 5 (lanesOf x)) s = .next { s with response := some (okPacket (mxv Config.hMatrix x)) } := by
  obtain ⟨-, hH, -⟩ := hinv
  rw [exec_syndrome_valid rfl (binary_lanesOf x), coderVector_lanesOf, ← hH]
  exact respond_okPacket hs (mxv s.hRom x) (by omega)

theorem exec_errvec_of_error {x e : BitVec 5} (he : weight e ≤ 1) (hx : x ^^^ e ∈ codewords) :
    exec (.errvec 5 (lanesOf x)) s = .next { s with response := some (okPacket e) } := by
  obtain ⟨hexec, -⟩ := errvecAnswersErrorVector.2 5 (lanesOf x) s hinv hs
  exact hexec x e rfl rfl he hx

theorem exec_errvec_of_unmapped {x : BitVec 5} (hx : HasUnmappedSyndrome x) :
    exec (.errvec 5 (lanesOf x)) s = .next { s with response := some 0x0001 } := by
  obtain ⟨-, hexec, -⟩ := errvecAnswersErrorVector.2 5 (lanesOf x) s hinv hs
  exact hexec x rfl rfl hx

theorem exec_correct_of_error {x e : BitVec 5} (he : weight e ≤ 1) (hx : x ^^^ e ∈ codewords) :
    exec (.correct 5 (lanesOf x)) s = .next { s with response := some (okPacket (x ^^^ e)) } := by
  obtain ⟨hexec, -⟩ := correctAnswersCodeword.2 5 (lanesOf x) s hinv hs
  exact hexec x e rfl rfl he hx

theorem exec_correct_of_unmapped {x : BitVec 5} (hx : HasUnmappedSyndrome x) :
    exec (.correct 5 (lanesOf x)) s = .next { s with response := some 0x0003 } := by
  obtain ⟨-, hexec, -⟩ := correctAnswersCodeword.2 5 (lanesOf x) s hinv hs
  exact hexec x rfl rfl hx

/-- A codeword within distance 1 is what CORRECT answers. -/
theorem exec_correct_of_distance {x c : BitVec 5} (hc : c ∈ codewords) (hd : distance x c ≤ 1) :
    exec (.correct 5 (lanesOf x)) s = .next { s with response := some (okPacket c) } := by
  have hx : x ^^^ (x ^^^ c) = c := by rw [← BitVec.xor_assoc, BitVec.xor_self, BitVec.zero_xor]
  have hexec := exec_correct_of_error hinv hs (x := x) (e := x ^^^ c) hd (hx.symm ▸ hc)
  rwa [hx] at hexec

end

/-! ### Nearest-codeword decoding -/

/-- No word is within distance 1 of two codewords: its errors against both would have one syndrome. -/
theorem nearest_codeword_unique {x c d : BitVec 5} (hc : c ∈ codewords) (hd : d ∈ codewords) (hxc : distance x c ≤ 1)
    (hxd : distance x d ≤ 1) : d = c := by
  have herr : x ^^^ d = x ^^^ c := eq_of_mxv_eq hxd hxc <| by
    rw [mxv_xor, mxv_xor, mxv_hMatrix_codeword c hc, mxv_hMatrix_codeword d hd]
  exact BitVec.xor_right_inj x |>.mp herr

/-- A word at distance 2 or more from every codeword has an unmapped syndrome (R28). -/
theorem hasUnmappedSyndrome_of_far : ∀ x : BitVec 5, (∀ c ∈ codewords, 2 ≤ distance x c) → HasUnmappedSyndrome x := by
  decide +kernel

/-- Settles O36, by the table's entry for a near word and for a far one. -/
theorem correctFindsNearestCodeword : Obligations.CorrectFindsNearestCodeword := fun _ x hinv hs =>
  ⟨fun _ hc hxc => ⟨exec_correct_of_distance hinv hs hc hxc, fun _ hd hxd => nearest_codeword_unique hc hd hxc hxd⟩,
    fun hfar => exec_correct_of_unmapped hinv hs (hasUnmappedSyndrome_of_far x hfar)⟩

/-! ### Single and double errors -/

theorem distance_xor_self (c e : BitVec 5) : distance (c ^^^ e) c = weight e := by
  rw [distance, BitVec.xor_comm, ← BitVec.xor_assoc, BitVec.xor_self, BitVec.zero_xor]

theorem setWidth_two_vxm_gMatrix : ∀ m : BitVec 2, (vxm m Config.gMatrix).setWidth 2 = m := by decide +kernel

theorem weight_twoPow : ∀ p < 5, weight (BitVec.twoPow 5 p) ≤ 1 := by decide

/-- Settles O34: the codeword is the product with G; a flipped position leaves it within distance 1. -/
theorem singleErrorsAreCorrected : Obligations.SingleErrorsAreCorrected := by
  intro s hinv hs
  refine ⟨fun m => ?_, fun _ => exec_invalid_ready hs (.inl (by decide)), fun _ => exec_invalid_ready hs (.inl (by decide)),
    fun m ⟨i, hi⟩ => exec_invalid_ready hs (.inr ⟨i, by rw [hi]; decide⟩),
    fun r ⟨i, hi⟩ => exec_invalid_ready hs (.inr ⟨i, by rw [hi]; decide⟩)⟩
  have hc : vxm m Config.gMatrix ∈ codewords := (mem_codewords_iff_row_space _).mpr ⟨m, rfl⟩
  refine ⟨vxm m Config.gMatrix, ?_, ?_, ?_, ?_, fun p hp => ?_⟩
  · rw [exec_encode_ready hinv hs rfl (binary_lanesOf m), coderVector_lanesOf]
  · rw [exec_decode_valid rfl (binary_lanesOf _), coderVector_lanesOf, setWidth_two_vxm_gMatrix]
    exact respond_okPacket hs m (by omega)
  · rw [exec_syndrome_lanesOf hinv hs, mxv_hMatrix_codeword _ hc]
    rfl
  · exact exec_correct_of_distance hinv hs hc (by rw [distance, BitVec.xor_self]; decide)
  · exact exec_correct_of_distance hinv hs hc ((distance_xor_self _ _).trans_le (weight_twoPow p hp))

/-- An error added to a codeword has the syndrome of the error alone. -/
theorem mxv_hMatrix_codeword_xor {c : BitVec 5} (hc : c ∈ codewords) (e : BitVec 5) :
    mxv Config.hMatrix (c ^^^ e) = mxv Config.hMatrix e := by
  rw [mxv_xor, mxv_hMatrix_codeword c hc]
  exact BitVec.zero_xor

section
variable {s : State} {c : BitVec 5} (hinv : s.Inv) (hs : s.ready) (hc : c ∈ codewords)
include hinv hs hc

/-- An error with an unmapped syndrome is reported. -/
theorem exec_of_detected_error {e : BitVec 5} {t : BitVec 3} (ht : mxv Config.hMatrix e = t) (he : HasUnmappedSyndrome e) :
    exec (.syndrome 5 (lanesOf (c ^^^ e))) s = .next { s with response := some (okPacket t) } ∧
      exec (.errvec 5 (lanesOf (c ^^^ e))) s = .next { s with response := some 0x0001 } ∧
      exec (.correct 5 (lanesOf (c ^^^ e))) s = .next { s with response := some 0x0003 } := by
  have hx := mxv_hMatrix_codeword_xor hc e
  have hun : HasUnmappedSyndrome (c ^^^ e) := by rwa [HasUnmappedSyndrome, hx]
  refine ⟨?_, exec_errvec_of_unmapped hinv hs hun, exec_correct_of_unmapped hinv hs hun⟩
  rw [exec_syndrome_lanesOf hinv hs, hx, ht]

/-- An error that differs from a codeword by an `f` of weight at most 1 is taken for `f`. -/
theorem exec_of_miscorrected_error {e f : BitVec 5} {t : BitVec 3} {n : Nat} (ht : mxv Config.hMatrix e = t)
    (hf : weight f ≤ 1) (hef : e ^^^ f ∈ codewords) (hweight : weight (e ^^^ f) = n) :
    exec (.syndrome 5 (lanesOf (c ^^^ e))) s = .next { s with response := some (okPacket t) } ∧
      exec (.errvec 5 (lanesOf (c ^^^ e))) s = .next { s with response := some (okPacket f) } ∧
      exec (.correct 5 (lanesOf (c ^^^ e))) s = .next { s with response := some (okPacket (c ^^^ e ^^^ f)) } ∧
      c ^^^ e ^^^ f ∈ codewords ∧ distance (c ^^^ e ^^^ f) c = n := by
  have hwrong : c ^^^ e ^^^ f ∈ codewords := BitVec.xor_assoc c e f ▸ xor_mem_codewords hc hef
  refine ⟨?_, exec_errvec_of_error hinv hs hf hwrong, exec_correct_of_error hinv hs hf hwrong, hwrong, ?_⟩
  · rw [exec_syndrome_lanesOf hinv hs, mxv_hMatrix_codeword_xor hc, ht]
  · rw [BitVec.xor_assoc, distance_xor_self, hweight]

end

/-- The two positions of a pair of errors. -/
abbrev pairError (p q : Nat) : BitVec 5 := BitVec.twoPow 5 p ^^^ BitVec.twoPow 5 q

/-- The rows of R108 that are reported: two positions and the syndrome. -/
def detectedPairs : List (Nat × Nat × BitVec 3) := [(0, 3, 0b101), (0, 4, 0b011), (2, 3, 0b011), (2, 4, 0b101)]

/-- The rows of R108 that are miscorrected: two positions, the syndrome, and the position that is flipped instead. -/
def miscorrectedPairs : List (Nat × Nat × BitVec 3 × Nat) :=
  [(0, 1, 0b001, 2), (0, 2, 0b110, 1), (1, 2, 0b111, 0), (1, 3, 0b100, 4), (1, 4, 0b010, 3), (3, 4, 0b110, 1)]

theorem detectedPairs_syndrome : ∀ q ∈ detectedPairs,
    mxv Config.hMatrix (pairError q.1 q.2.1) = q.2.2 ∧ HasUnmappedSyndrome (pairError q.1 q.2.1) := by decide

/-- In each of the other rows a third flipped position completes a codeword of weight 3. -/
theorem miscorrectedPairs_syndrome : ∀ q ∈ miscorrectedPairs,
    mxv Config.hMatrix (pairError q.1 q.2.1) = q.2.2.1 ∧ weight (BitVec.twoPow 5 q.2.2.2) ≤ 1 ∧
      pairError q.1 q.2.1 ^^^ BitVec.twoPow 5 q.2.2.2 ∈ codewords ∧
      weight (pairError q.1 q.2.1 ^^^ BitVec.twoPow 5 q.2.2.2) = 3 := by decide

/-- Settles O35, row by row of R108: the pair's syndrome is unmapped, or it is that of another error. -/
theorem doubleErrors : Obligations.DoubleErrors := by
  intro s c hinv hs hc
  refine ⟨fun q hq => ?_, fun q hq => ?_⟩
  · obtain ⟨ht, hun⟩ := detectedPairs_syndrome q hq
    simp only [BitVec.xor_assoc c]
    exact exec_of_detected_error hinv hs hc ht hun
  · obtain ⟨ht, hf, hef, hweight⟩ := miscorrectedPairs_syndrome q hq
    simp only [BitVec.xor_assoc c (BitVec.twoPow 5 q.1)]
    exact exec_of_miscorrected_error hinv hs hc ht hf hef hweight

/-! ### The answer depends on the tables alone (R48) -/

section
variable {s t : State} {i : Instr} {r : RspPacket}

/-- The answer of one response, in another ready state. -/
theorem respond_transfer {st : Status} {n : Nat} {bits : BitVec n}
    (h : respond st n bits s = .next { s with response := some r }) (ht : t.ready) :
    respond st n bits t = .next { t with response := some r } := by
  obtain ⟨-, hs⟩ := respond_next_iff.mp h
  obtain rfl : r = _ := Option.some.inj (congrArg State.response hs)
  exact respond_ready ht

/-- An instruction reads of the tables G, for SYNDROME the syndrome, and for ERRVEC and CORRECT the entry at it; where these
are equal, the states answer alike. -/
theorem exec_respond_alike (i : Instr) (hG : s.gRom = t.gRom) (hlookup : ∀ x, lookup s x = lookup t x)
    (hsyn : ∀ alen x, i = .syndrome alen (lanesOf x) → mxv s.hRom x = mxv t.hRom x) :
    ∃ st n, ∃ bits : BitVec n, exec i s = respond st n bits s ∧ exec i t = respond st n bits t := by
  by_cases hcause : invalidInputCause i
  · exact ⟨.invalidInput, 0, 0#0, exec_of_invalidInputCause hcause s, exec_of_invalidInputCause hcause t⟩
  cases i with
  | add | mul => exact ⟨.ok, _, _, rfl, rfl⟩
  | vmul | mvmul => exact ⟨.ok, _, _, if_neg hcause, if_neg hcause⟩
  | encode alen m =>
    obtain ⟨hlen, x, rfl⟩ := (valid_or_invalid alen m).resolve_right hcause
    exact ⟨.ok, _, _, exec_encode_valid hlen (binary_lanesOf x), hG ▸ exec_encode_valid hlen (binary_lanesOf x)⟩
  | syndrome alen r =>
    obtain ⟨hlen, x, rfl⟩ := (valid_or_invalid alen r).resolve_right hcause
    refine ⟨.ok, _, _, exec_syndrome_valid hlen (binary_lanesOf x), ?_⟩
    rw [coderVector_lanesOf, hsyn alen x rfl, exec_syndrome_valid hlen (binary_lanesOf x), coderVector_lanesOf]
  | decode alen c =>
    obtain ⟨hlen, x, rfl⟩ := (valid_or_invalid alen c).resolve_right hcause
    exact ⟨.ok, _, _, exec_decode_valid hlen (binary_lanesOf x), exec_decode_valid hlen (binary_lanesOf x)⟩
  | errvec alen r =>
    obtain ⟨rfl, x, rfl⟩ := (valid_or_invalid alen r).resolve_right hcause
    rw [exec_errvec_lanesOf, exec_errvec_lanesOf, hlookup]
    split
    · exact ⟨.ok, _, _, rfl, rfl⟩
    · exact ⟨.absent, 0, 0#0, rfl, rfl⟩
  | correct alen r =>
    obtain ⟨rfl, x, rfl⟩ := (valid_or_invalid alen r).resolve_right hcause
    rw [exec_correct_lanesOf, exec_correct_lanesOf, hlookup]
    split
    · exact ⟨.ok, _, _, rfl, rfl⟩
    · exact ⟨.uncorrectable, 0, 0#0, rfl, rfl⟩

theorem exec_transfer (hG : s.gRom = t.gRom) (hlookup : ∀ x, lookup s x = lookup t x)
    (hsyn : ∀ alen x, i = .syndrome alen (lanesOf x) → mxv s.hRom x = mxv t.hRom x) (ht : t.ready)
    (h : exec i s = .next { s with response := some r }) : exec i t = .next { t with response := some r } := by
  obtain ⟨st, n, bits, hi, hi'⟩ := exec_respond_alike i hG hlookup hsyn
  exact hi'.trans (respond_transfer (hi.symm.trans h) ht)

/-- Two states with equal tables. -/
structure SameTables (s t : State) : Prop where
  gRom : s.gRom = t.gRom
  hRom : s.hRom = t.hRom
  synRom : s.synRom = t.synRom

theorem SameTables.lookup (h : SameTables s t) (x : BitVec 5) : lookup s x = lookup t x := by
  rw [lookup_eq, lookup_eq, h.hRom, h.synRom]

theorem SameTables.runCommand_transfer {p : CmdPacket} (htab : SameTables s t) (ht : t.ready)
    (h : runCommand p s = .next { s with response := some r }) : runCommand p t = .next { t with response := some r } := by
  unfold runCommand at h ⊢
  split at h
  · exact exec_transfer htab.gRom htab.lookup (fun _ _ _ => by rw [htab.hRom]) ht h
  · exact respond_transfer h ht

/-- So each packet has one answer in all the ready states with the tables of one of them. -/
theorem exists_response (hs : s.ready) (p : CmdPacket) :
    ∃ r, ∀ t : State, t.ready → SameTables s t → runCommand p t = .next { t with response := some r } := by
  obtain ⟨r, hrun, -⟩ := runCommand_ready hs p
  exact ⟨r, fun t ht htab => htab.runCommand_transfer ht hrun⟩

end

/-! ### Whole runs -/

theorem run_succ_of_step {s t : State} (h : step s = .next t) (k : Nat) : core.run (k + 1) s = core.run k t := by
  have hstep : core.step s = .next t := h
  simp only [Host.Core.run, hstep]

theorem step_takeResponse (s : State) (r : RspPacket) (rest : List HostEvent) :
    step { s with inputs := .takeResponse :: rest, response := some r } =
      .next { s with inputs := rest, response := none, received := s.received ++ [r] } := rfl

/-- A command and the receiving of its response are two steps, after which the block is ready again with the same tables. -/
theorem run_script {s : State} {answer : CmdPacket → RspPacket}
    (hanswer : ∀ p (t : State), t.ready → SameTables s t → runCommand p t = .next { t with response := some (answer p) })
    (ps : List CmdPacket) {t : State} (ht : t.ready) (htab : SameTables s t) :
    core.run (2 * ps.length) { t with inputs := script ps } =
      .next { t with inputs := [], received := t.received ++ ps.map answer } := by
  induction ps generalizing t with
  | nil =>
    rw [List.map_nil, List.append_nil]
    rfl
  | cons p ps ih =>
    have hcommand := hanswer p { t with inputs := .takeResponse :: script ps } ht ⟨htab.gRom, htab.hRom, htab.synRom⟩
    rw [List.length_cons, Nat.mul_succ, script, run_succ_of_step ((step_command t p _).trans hcommand),
      run_succ_of_step (step_takeResponse t _ _)]
    refine (ih (t := { t with response := none, received := t.received ++ [answer p] }) ⟨ht.1, rfl⟩
      ⟨htab.gRom, htab.hRom, htab.synRom⟩).trans ?_
    simp [ht.2]

/-- Settles O44: each packet has one answer, so a run pairs each packet with that answer, in whatever order they come. -/
theorem responseDependsOnPacketAndTables : Obligations.ResponseDependsOnPacketAndTables := by
  refine ⟨fun s t p rest rest' hs ht hG hH hsyn => ?_, fun s ps qs hs hperm => ?_⟩
  · obtain ⟨r, hr⟩ := exists_response hs p
    exact ⟨r, hr { s with inputs := rest } hs ⟨rfl, rfl, rfl⟩, hr { t with inputs := rest' } ht ⟨hG, hH, hsyn⟩⟩
  · choose answer hanswer using exists_response hs
    have htab : SameTables s s := ⟨rfl, rfl, rfl⟩
    refine ⟨ps.map answer, qs.map answer, run_script hanswer ps hs htab, run_script hanswer qs hs htab,
      List.length_map _, List.length_map _, ?_⟩
    rw [← List.map_prod_left_eq_zip, ← List.map_prod_left_eq_zip]
    exact hperm.map _

/-! ### Runs of a dutiful host (R142) -/

/-- In a run the tables are those of reset once reset has happened. -/
theorem sameTables_reset {s : State} (hinv : s.Inv) (hbuilt : s.built = true) : SameTables State.reset s := by
  obtain ⟨hG, hH, hsyn, -⟩ := hinv
  exact ⟨hG.symm, hH.symm, buildSynRom_hMatrix.trans (hsyn hbuilt).symm⟩

theorem runCommand_soloResponse {s : State} (hinv : s.Inv) (hs : s.ready) (p : CmdPacket) :
    ∃ r, soloResponse p = some r ∧ runCommand p s = .next { s with response := some r } := by
  obtain ⟨r, hr⟩ := exists_response (s := State.reset) ⟨rfl, rfl⟩ p
  have hsolo : step { State.reset with inputs := [.command p] } = .next { State.reset with response := some r } :=
    hr State.reset ⟨rfl, rfl⟩ ⟨rfl, rfl, rfl⟩
  exact ⟨r, by rw [soloResponse, hsolo], hr s hs (sameTables_reset hinv hs.1)⟩

/-- The responses so far: those the host has received, and the outstanding one. -/
def responses (s : State) : List (Option RspPacket) := (s.received ++ s.response.toList).map some

/-- A step with an event that keeps the duties answers; a command adds its response, and no other event adds one. -/
theorem step_of_dutiful {s : State} {e : HostEvent} {es : List HostEvent} (hinv : s.Inv) (hin : s.inputs = e :: es)
    (hduty : dutiful s.built s.response.isSome (e :: es) = true) :
    ∃ t, step s = .next t ∧ t.inputs = es ∧ dutiful t.built t.response.isSome es = true ∧
      responses t = responses s ++ (commandsOf [e]).map soloResponse := by
  obtain ⟨g, h, syn, built, inputs, response, received, n⟩ := s
  obtain rfl : inputs = e :: es := hin
  cases e with
  | command p =>
    simp only [dutiful, Bool.and_eq_true, Bool.not_eq_true', Option.isSome_eq_false_iff, Option.isNone_iff_eq_none] at hduty
    obtain ⟨⟨rfl, rfl⟩, hduty⟩ := hduty
    obtain ⟨r, hsolo, hrun⟩ := runCommand_soloResponse (hinv.withInputs es) ⟨rfl, rfl⟩ p
    exact ⟨_, hrun, rfl, hduty, by simp [responses, commandsOf, hsolo]⟩
  | takeResponse =>
    simp only [dutiful, Bool.and_eq_true, Option.isSome_iff_exists] at hduty
    obtain ⟨⟨r, rfl⟩, hduty⟩ := hduty
    exact ⟨_, rfl, rfl, hduty, by simp [responses, commandsOf]⟩
  | reset => exact ⟨_, rfl, rfl, hduty, by simp [responses, commandsOf]⟩
  | powerLoss =>
    simp only [dutiful, Bool.and_eq_true, Bool.not_eq_true', Option.isSome_eq_false_iff, Option.isNone_iff_eq_none] at hduty
    obtain ⟨rfl, hduty⟩ := hduty
    exact ⟨_, rfl, rfl, by simpa using hduty, by simp [responses, commandsOf]⟩

theorem commandsOf_cons (e : HostEvent) (es : List HostEvent) : commandsOf (e :: es) = commandsOf [e] ++ commandsOf es := by
  cases e <;> rfl

theorem run_of_dutiful (es : List HostEvent) {s : State} (hinv : s.Inv) (hin : s.inputs = es)
    (hduty : dutiful s.built s.response.isSome es = true) :
    ∃ t : State, core.run es.length s = .next t ∧ t.inputs = [] ∧ t.Inv ∧
      responses t = responses s ++ (commandsOf es).map soloResponse := by
  induction es generalizing s with
  | nil => exact ⟨s, rfl, hin, hinv, (List.append_nil _).symm⟩
  | cons e es ih =>
    obtain ⟨u, hstep, hin', hduty', hresponses⟩ := step_of_dutiful hinv hin hduty
    obtain ⟨t, hrun, hempty, ht, hresponses'⟩ := ih (stepKeepsInv s u hinv hstep) hin' hduty'
    refine ⟨t, (run_succ_of_step hstep _).trans hrun, hempty, ht, ?_⟩
    rw [hresponses', hresponses, commandsOf_cons e es, List.map_append, List.append_assoc]

/-- Settles O45, by induction on the events, with what one of them does. -/
theorem dutifulRunAnswersEveryCommand : Obligations.DutifulRunAnswersEveryCommand := fun _ hinv hduty =>
  run_of_dutiful _ hinv rfl hduty

/-! ### Another choice of H (R109) -/

theorem unitVector_not_mem_codewords : ∀ p < 5, unitVector p ∉ codewords := by decide

/-- No two single errors differ by a codeword. -/
theorem eq_of_unitVector_xor_mem_codewords : ∀ p < 5, ∀ q < 5, unitVector p ^^^ unitVector q ∈ codewords → p = q := by
  decide

section
variable {h : BitMatrix 3 5} (hcode : ∀ r : BitVec 5, mxv h r = 0 ↔ r ∈ codewords)
include hcode

/-- Words have one syndrome exactly when they differ by a codeword, whatever matrix with that null space is taken. -/
theorem mxv_eq_iff_xor_mem_codewords {u w : BitVec 5} : mxv h u = mxv h w ↔ u ^^^ w ∈ codewords :=
  mxv_eq_iff.trans (hcode _)

/-- The entry that reset builds at the syndrome of a word, from the code alone: of a codeword, of a word that differs from
one by a single error, and of any other. -/
theorem buildSynRom_get_syndrome (x : BitVec 5) :
    (x ∈ codewords → (buildSynRom h).get (key (mxv h x)) = ⟨true, 0⟩) ∧
    (∀ p < 5, x ^^^ unitVector p ∈ codewords → (buildSynRom h).get (key (mxv h x)) = ⟨true, unitVector p⟩) ∧
    (x ∉ codewords → (∀ p < 5, x ^^^ unitVector p ∉ codewords) →
      (buildSynRom h).get (key (mxv h x)) = ⟨false, 0⟩) := by
  refine ⟨fun hx => ?_, fun p hp hx => ?_, fun hx hfar => ?_⟩
  · rw [key_eq_zero_iff.mpr ((hcode x).mpr hx), buildSynRom_get_zero]
  · rw [(mxv_eq_iff_xor_mem_codewords hcode).mpr hx]
    have hne : ∀ q < 5, mxv h (unitVector q) ≠ 0 := fun q hq =>
      (hcode _).not.mpr (unitVector_not_mem_codewords q hq)
    refine buildSynRom_get_column hne (fun q hq q' hq' heq => ?_) hp
    exact eq_of_unitVector_xor_mem_codewords q hq q' hq' ((mxv_eq_iff_xor_mem_codewords hcode).mp heq)
  · refine buildSynRom_get_unmapped (fun h0 => hx ((hcode x).mp (key_eq_zero_iff.mp h0))) fun p hp hkey => hfar p hp ?_
    exact (mxv_eq_iff_xor_mem_codewords hcode).mp (key_injective _ _ hkey)

end

/-- So every matrix whose null space is the code gives each word the same entry. -/
theorem buildSynRom_get_syndrome_eq {h h' : BitMatrix 3 5} (hcode : ∀ r : BitVec 5, mxv h r = 0 ↔ r ∈ codewords)
    (hcode' : ∀ r : BitVec 5, mxv h' r = 0 ↔ r ∈ codewords) (x : BitVec 5) :
    (buildSynRom h).get (key (mxv h x)) = (buildSynRom h').get (key (mxv h' x)) := by
  obtain ⟨hzero, hsingle, hother⟩ := buildSynRom_get_syndrome hcode x
  obtain ⟨hzero', hsingle', hother'⟩ := buildSynRom_get_syndrome hcode' x
  by_cases hx : x ∈ codewords
  · rw [hzero hx, hzero' hx]
  by_cases hp : ∃ p < 5, x ^^^ unitVector p ∈ codewords
  · obtain ⟨p, hp, hxp⟩ := hp
    rw [hsingle p hp hxp, hsingle' p hp hxp]
  · have hfar : ∀ p < 5, x ^^^ unitVector p ∉ codewords := fun p hlt hxp => hp ⟨p, hlt, hxp⟩
    rw [hother hx hfar, hother' hx hfar]

/-- The block with another matrix in `H_ROM`, and the table that reset builds from it. -/
abbrev withOtherH (s : State) (h : BitMatrix 3 5) : State := resetBlock { s with hRom := h }

theorem withOtherH_ready {s : State} (hs : s.ready) (h : BitMatrix 3 5) : (withOtherH s h).ready := ⟨rfl, hs.2⟩

theorem lookup_withOtherH {s : State} {h : BitMatrix 3 5} (hinv : s.Inv) (hs : s.ready)
    (hcode : ∀ r : BitVec 5, mxv h r = 0 ↔ r ∈ codewords) (x : BitVec 5) : lookup s x = lookup (withOtherH s h) x := by
  obtain ⟨-, hH, hsyn, -⟩ := hinv
  rw [lookup_eq, lookup_eq, hH, hsyn hs.1, ← buildSynRom_hMatrix]
  exact buildSynRom_get_syndrome_eq (fun r => (mem_codewords_iff_null_space r).symm) hcode x

/-- OK packets of one length differ in their result bits at most. -/
theorem okPacket_bit_eq {n k : Nat} (u w : BitVec n) (hn : n ≤ 8) (hk : k < 16) (h : k < 8 ∨ 8 + n ≤ k) :
    (okPacket u).getLsbD k = (okPacket w).getLsbD k := by
  rw [okPacket_bit u hn hk, okPacket_bit w hn hk]
  split
  case isTrue => rfl
  case isFalse => rw [BitVec.getLsbD_of_ge u _ (by omega), BitVec.getLsbD_of_ge w _ (by omega)]

/-- SYNDROME rejects the same operands, and answers every other with a result of three bits. -/
theorem exec_syndrome_other {s t : State} (hs : s.ready) (ht : t.ready) {alen : Nat} {r : Vector Lane 5} {p : RspPacket}
    (h : exec (.syndrome alen r) s = .next { s with response := some p }) :
    ∃ p', exec (.syndrome alen r) t = .next { t with response := some p' } ∧
      ∀ k < 16, k < 8 ∨ 11 ≤ k → p'.getLsbD k = p.getLsbD k := by
  obtain ⟨hlen, x, rfl⟩ | hcause := valid_or_invalid alen r
  · rw [exec_syndrome_valid hlen (binary_lanesOf x), respond_okPacket hs _ (by omega)] at h
    obtain rfl : okPacket _ = p := by simpa using h
    rw [exec_syndrome_valid hlen (binary_lanesOf x), respond_okPacket ht _ (by omega)]
    exact ⟨_, rfl, fun k hk hbit => okPacket_bit_eq _ _ (by omega) hk hbit⟩
  · rw [exec_of_invalidInputCause (i := .syndrome alen r) hcause] at h ⊢
    exact ⟨p, respond_transfer h ht, fun _ _ _ => rfl⟩

/-- Settles O37: the entry of every word is the same, and SYNDROME alone shows the syndrome itself. -/
theorem responsesDoNotDependOnChoiceOfH : Obligations.ResponsesDoNotDependOnChoiceOfH := by
  intro s h hinv hs hcode
  have hs' := withOtherH_ready hs h
  refine ⟨fun i hi p hexec => ?_, fun alen r p hexec => exec_syndrome_other hs hs' hexec⟩
  exact exec_transfer (s := s) (t := withOtherH s h) rfl (lookup_withOtherH hinv hs hcode)
    (fun alen x hx => absurd hx (hi alen _)) hs' hexec

end Sys2Proof.Machine
end
